-- ==== Sys2Proof/Word.lean ====
section
/-! DEFINITION. The machine's word types (00_scope.md R8, R12): a register value, an address and an immediate are 32-bit
patterns; `+`, `-` and shifts on them are taken modulo 2^32, which is what `BitVec`'s own operations do. -/

namespace Sys2Proof

/-- A 32-bit pattern: a register's contents, a byte address, an extended immediate, an instruction word (R8, R12). -/
abbrev Word := BitVec 32

/-- One byte of memory (R43). -/
abbrev Byte := BitVec 8

/-- A half-word, what `load16` answers (R40). -/
abbrev Half := BitVec 16

end Sys2Proof
end

