-- ==== Sys2Proof/Config.lean ====
section
/-! DEFINITION. What an implementation fixes: the configuration record's two cases (10_state.md R30), and, as constants with
no body so that no proof can lean on a value, the three OPEN parameters of 00_scope.md R9 and MEM_INIT for the bytes the host
did not load. -/

namespace Sys2Proof

/-- Where the pc is left by a step that stopped after the default `pc <- ipc + 4` (40_execution_engine.md R103). -/
inductive PcAfter where
  /-- `Instr`: the pc is left at the stopping instruction, ipc. -/
  | instr
  /-- `Next`: the pc is left at ipc + 4. -/
  | next
  deriving DecidableEq, Repr, Inhabited

/-- The configuration record (R30). Only the default has a meaning; every other value is one case, which the step refuses. -/
inductive Configuration where
  /-- The default, "RV32I only". -/
  | rv32iOnly
  /-- Any other setting of the record; the source gives it no meaning (R30, D23, U7). -/
  | nonDefault
  deriving DecidableEq, Repr

namespace Config

/-- PC_AFTER_DATA_FAULT: the pc left by a load or store fault. OPEN in the spec (D9, R103), so it has no body (log 5). -/
opaque pcAfterDataFault : PcAfter

/-- PC_AFTER_HALT: the pc left by ECALL or EBREAK. OPEN in the spec (D10, R103), so it has no body (log 5). -/
opaque pcAfterHalt : PcAfter

/-- RUN_COUNTS_STOPPING_STEP: whether `run`'s count includes the step that halted or faulted. OPEN in the spec
(D16, R105), so it has no body (log 6). -/
opaque runCountsStoppingStep : Bool

/-- MEM_INIT at an address the host did not load: whatever the memory implementation gives it, an unknown value
(00_scope.md R9; 70_reset_and_hazards.md R253, U6; log 3). A free value: it has no body. -/
opaque memInit : Nat → Byte

end Config

end Sys2Proof
end

