-- ==== Sys2Proof/Syntax.lean ====
section
/-! DEFINITION. The semantic instruction (30_encoding.md R69; 00_scope.md R15): a closed variant with one constructor for
each of the 37 rows of spec/opcode_table.json, carrying only final values. -/

namespace Sys2Proof

/-- A register index: the 5-bit field of the instruction word, x0 to x31 (10_state.md R20; 30_encoding.md R60). -/
abbrev RegIdx := BitVec 5

/-- The shift amount of SLLI, SRLI and SRAI, 0 to 31 (30_encoding.md R68). -/
abbrev Shamt := BitVec 5

/-- The 37 instructions (00_scope.md R2), with the operands R69 gives each: register indices, the extended 32-bit immediate
`imm`, or the 5-bit `shamt`. -/
inductive Instr where
  | add (rd rs1 rs2 : RegIdx)
  | sub (rd rs1 rs2 : RegIdx)
  | and (rd rs1 rs2 : RegIdx)
  | or (rd rs1 rs2 : RegIdx)
  | xor (rd rs1 rs2 : RegIdx)
  | slt (rd rs1 rs2 : RegIdx)
  | sltu (rd rs1 rs2 : RegIdx)
  | sll (rd rs1 rs2 : RegIdx)
  | srl (rd rs1 rs2 : RegIdx)
  | sra (rd rs1 rs2 : RegIdx)
  | addi (rd rs1 : RegIdx) (imm : Word)
  | andi (rd rs1 : RegIdx) (imm : Word)
  | ori (rd rs1 : RegIdx) (imm : Word)
  | xori (rd rs1 : RegIdx) (imm : Word)
  | slti (rd rs1 : RegIdx) (imm : Word)
  | sltiu (rd rs1 : RegIdx) (imm : Word)
  | slli (rd rs1 : RegIdx) (shamt : Shamt)
  | srli (rd rs1 : RegIdx) (shamt : Shamt)
  | srai (rd rs1 : RegIdx) (shamt : Shamt)
  | lb (rd rs1 : RegIdx) (imm : Word)
  | lh (rd rs1 : RegIdx) (imm : Word)
  | lw (rd rs1 : RegIdx) (imm : Word)
  | lbu (rd rs1 : RegIdx) (imm : Word)
  | lhu (rd rs1 : RegIdx) (imm : Word)
  | sb (rs1 rs2 : RegIdx) (imm : Word)
  | sh (rs1 rs2 : RegIdx) (imm : Word)
  | sw (rs1 rs2 : RegIdx) (imm : Word)
  | jal (rd : RegIdx) (imm : Word)
  | jalr (rd rs1 : RegIdx) (imm : Word)
  | beq (rs1 rs2 : RegIdx) (imm : Word)
  | bne (rs1 rs2 : RegIdx) (imm : Word)
  | blt (rs1 rs2 : RegIdx) (imm : Word)
  | bge (rs1 rs2 : RegIdx) (imm : Word)
  | bltu (rs1 rs2 : RegIdx) (imm : Word)
  | bgeu (rs1 rs2 : RegIdx) (imm : Word)
  | ecall
  | ebreak
  deriving DecidableEq, Repr

/-- The mnemonic of an instruction, as spec/opcode_table.json spells it. -/
def Instr.mnemonic : Instr → String
  | .add _ _ _ => "ADD"
  | .sub _ _ _ => "SUB"
  | .and _ _ _ => "AND"
  | .or _ _ _ => "OR"
  | .xor _ _ _ => "XOR"
  | .slt _ _ _ => "SLT"
  | .sltu _ _ _ => "SLTU"
  | .sll _ _ _ => "SLL"
  | .srl _ _ _ => "SRL"
  | .sra _ _ _ => "SRA"
  | .addi _ _ _ => "ADDI"
  | .andi _ _ _ => "ANDI"
  | .ori _ _ _ => "ORI"
  | .xori _ _ _ => "XORI"
  | .slti _ _ _ => "SLTI"
  | .sltiu _ _ _ => "SLTIU"
  | .slli _ _ _ => "SLLI"
  | .srli _ _ _ => "SRLI"
  | .srai _ _ _ => "SRAI"
  | .lb _ _ _ => "LB"
  | .lh _ _ _ => "LH"
  | .lw _ _ _ => "LW"
  | .lbu _ _ _ => "LBU"
  | .lhu _ _ _ => "LHU"
  | .sb _ _ _ => "SB"
  | .sh _ _ _ => "SH"
  | .sw _ _ _ => "SW"
  | .jal _ _ => "JAL"
  | .jalr _ _ _ => "JALR"
  | .beq _ _ _ => "BEQ"
  | .bne _ _ _ => "BNE"
  | .blt _ _ _ => "BLT"
  | .bge _ _ _ => "BGE"
  | .bltu _ _ _ => "BLTU"
  | .bgeu _ _ _ => "BGEU"
  | .ecall => "ECALL"
  | .ebreak => "EBREAK"

end Sys2Proof
end

