-- ==== Sys2Proof/WellFormed.lean ====
section
/-! DEFINITION. Which semantic instructions an encoding can carry: each immediate lies in the range its format gives it
(30_encoding.md R63 to R67, R85). Register indices and shift amounts are 5-bit by their type and take every value (R84). -/

namespace Sys2Proof

/-- The range of imm_I: -2048 .. 2047 (R63). -/
def fitsI (imm : Word) : Bool := decide (-2048 ≤ imm.toInt ∧ imm.toInt ≤ 2047)

/-- The range of imm_S: -2048 .. 2047 (R64). -/
def fitsS (imm : Word) : Bool := decide (-2048 ≤ imm.toInt ∧ imm.toInt ≤ 2047)

/-- The range of imm_B: even, -4096 .. 4094 (R65). -/
def fitsB (imm : Word) : Bool := decide (-4096 ≤ imm.toInt ∧ imm.toInt ≤ 4094 ∧ imm.toInt % 2 = 0)

/-- The range of imm_J: even, -1048576 .. 1048574 (R67). -/
def fitsJ (imm : Word) : Bool := decide (-1048576 ≤ imm.toInt ∧ imm.toInt ≤ 1048574 ∧ imm.toInt % 2 = 0)

/-- An instruction is well-formed when its immediate lies in the encoder's domain (R85). -/
def Instr.wellFormed : Instr → Bool
  | .add _ _ _ | .sub _ _ _ | .and _ _ _ | .or _ _ _ | .xor _ _ _ => true
  | .slt _ _ _ | .sltu _ _ _ | .sll _ _ _ | .srl _ _ _ | .sra _ _ _ => true
  | .addi _ _ imm | .andi _ _ imm | .ori _ _ imm | .xori _ _ imm | .slti _ _ imm | .sltiu _ _ imm => fitsI imm
  | .slli _ _ _ | .srli _ _ _ | .srai _ _ _ => true
  | .lb _ _ imm | .lh _ _ imm | .lw _ _ imm | .lbu _ _ imm | .lhu _ _ imm => fitsI imm
  | .sb _ _ imm | .sh _ _ imm | .sw _ _ imm => fitsS imm
  | .jal _ imm => fitsJ imm
  | .jalr _ _ imm => fitsI imm
  | .beq _ _ imm | .bne _ _ imm | .blt _ _ imm | .bge _ _ imm | .bltu _ _ imm | .bgeu _ _ imm => fitsB imm
  | .ecall | .ebreak => true

end Sys2Proof
end

