-- ==== Sys2Proof/Decode.lean ====
section
/-! DEFINITION. The decoder (30_encoding.md): fields, immediates, the dispatch on (opcode, funct3, funct7), total over all 2^32
words; after it the encoder, from the same tables; the 37 rows of the decode table (R73) as masks and patterns; and the host's
`decodeTableWord`. -/

namespace Sys2Proof

/-! ## Fields (R60) -/

/-- `bits[6:0]`. -/
def opcode (raw : Word) : BitVec 7 := raw.extractLsb' 0 7
/-- `bits[11:7]`. -/
def rdField (raw : Word) : RegIdx := raw.extractLsb' 7 5
/-- `bits[14:12]`. -/
def funct3 (raw : Word) : BitVec 3 := raw.extractLsb' 12 3
/-- `bits[19:15]`. -/
def rs1Field (raw : Word) : RegIdx := raw.extractLsb' 15 5
/-- `bits[24:20]`. -/
def rs2Field (raw : Word) : RegIdx := raw.extractLsb' 20 5
/-- `bits[31:25]`. -/
def funct7 (raw : Word) : BitVec 7 := raw.extractLsb' 25 7

/-! ## Immediates (R63 to R68) -/

/-- I-immediate: `sext_32(raw[31:20])` (R63). -/
def immI (raw : Word) : Word := (raw.extractLsb' 20 12).signExtend 32

/-- S-immediate: `sext_32(raw[31:25] ++ raw[11:7])` (R64). -/
def immS (raw : Word) : Word := (raw.extractLsb' 25 7 ++ raw.extractLsb' 7 5).signExtend 32

/-- B-immediate: `sext_32(raw[31] ++ raw[7] ++ raw[30:25] ++ raw[11:8] ++ 0)` (R65). -/
def immB (raw : Word) : Word :=
  (raw.extractLsb' 31 1 ++ raw.extractLsb' 7 1 ++ raw.extractLsb' 25 6 ++ raw.extractLsb' 8 4 ++ 0#1).signExtend 32

/-- U-immediate: `raw[31:12] ++ 0^12` (R66). Defined by the source; no admitted instruction uses it (C1). -/
def immU (raw : Word) : Word := raw.extractLsb' 12 20 ++ 0#12

/-- J-immediate: `sext_32(raw[31] ++ raw[19:12] ++ raw[20] ++ raw[30:21] ++ 0)` (R67). -/
def immJ (raw : Word) : Word :=
  (raw.extractLsb' 31 1 ++ raw.extractLsb' 12 8 ++ raw.extractLsb' 20 1 ++ raw.extractLsb' 21 10 ++ 0#1).signExtend 32

/-- Shift amount of SLLI, SRLI and SRAI: `raw[24:20]` (R68). -/
def shamtField (raw : Word) : Shamt := raw.extractLsb' 20 5

/-! ## The decoder (R70 to R80) -/

/-- The decoder's answer: a semantic instruction, or IllegalEncoding with the raw word (R70, R72). -/
inductive DecodeResult where
  | instr (i : Instr)
  | illegalEncoding (raw : Word)
  deriving DecidableEq, Repr

/-- OP, opcode 0110011 (R75): funct7 and funct3 pick the instruction; every other pair is illegal (D2). -/
def selectOp (f7 : BitVec 7) (f3 : BitVec 3) : Option (RegIdx → RegIdx → RegIdx → Instr) :=
  match f7, f3 with
  | 0b0000000#7, 0b000#3 => some .add
  | 0b0100000#7, 0b000#3 => some .sub
  | 0b0000000#7, 0b001#3 => some .sll
  | 0b0000000#7, 0b010#3 => some .slt
  | 0b0000000#7, 0b011#3 => some .sltu
  | 0b0000000#7, 0b100#3 => some .xor
  | 0b0000000#7, 0b101#3 => some .srl
  | 0b0100000#7, 0b101#3 => some .sra
  | 0b0000000#7, 0b110#3 => some .or
  | 0b0000000#7, 0b111#3 => some .and
  | _, _ => none

/-- OP-IMM, opcode 0010011, the rows with an immediate (R76). -/
def selectOpImm (f3 : BitVec 3) : Option (RegIdx → RegIdx → Word → Instr) :=
  match f3 with
  | 0b000#3 => some .addi
  | 0b010#3 => some .slti
  | 0b011#3 => some .sltiu
  | 0b100#3 => some .xori
  | 0b110#3 => some .ori
  | 0b111#3 => some .andi
  | _ => none

/-- OP-IMM, opcode 0010011, the shift rows: funct7 is checked exactly (R76, D2). -/
def selectShiftImm (f7 : BitVec 7) (f3 : BitVec 3) : Option (RegIdx → RegIdx → Shamt → Instr) :=
  match f7, f3 with
  | 0b0000000#7, 0b001#3 => some .slli
  | 0b0000000#7, 0b101#3 => some .srli
  | 0b0100000#7, 0b101#3 => some .srai
  | _, _ => none

/-- LOAD, opcode 0000011 (R77). -/
def selectLoad (f3 : BitVec 3) : Option (RegIdx → RegIdx → Word → Instr) :=
  match f3 with
  | 0b000#3 => some .lb
  | 0b001#3 => some .lh
  | 0b010#3 => some .lw
  | 0b100#3 => some .lbu
  | 0b101#3 => some .lhu
  | _ => none

/-- STORE, opcode 0100011 (R78). -/
def selectStore (f3 : BitVec 3) : Option (RegIdx → RegIdx → Word → Instr) :=
  match f3 with
  | 0b000#3 => some .sb
  | 0b001#3 => some .sh
  | 0b010#3 => some .sw
  | _ => none

/-- BRANCH, opcode 1100011 (R79). -/
def selectBranch (f3 : BitVec 3) : Option (RegIdx → RegIdx → Word → Instr) :=
  match f3 with
  | 0b000#3 => some .beq
  | 0b001#3 => some .bne
  | 0b100#3 => some .blt
  | 0b101#3 => some .bge
  | 0b110#3 => some .bltu
  | 0b111#3 => some .bgeu
  | _ => none

/-- JALR, opcode 1100111: funct3 must be 000 (R79, D4). -/
def selectJalr (f3 : BitVec 3) : Option (RegIdx → RegIdx → Word → Instr) :=
  match f3 with
  | 0b000#3 => some .jalr
  | _ => none

/-- SYSTEM, opcode 1110011: exactly two words, compared on all 32 bits (R80, D3). -/
def selectSystem (raw : Word) : Option Instr :=
  match raw with
  | 0x00000073#32 => some .ecall
  | 0x00100073#32 => some .ebreak
  | _ => none

/-- The instruction of a word, if it is one of the 37 (R71, R74): the opcode picks the group, then the fields R71 lists. -/
def decodeInstr (raw : Word) : Option Instr :=
  match opcode raw with
  | 0b0110011#7 => (selectOp (funct7 raw) (funct3 raw)).map fun f => f (rdField raw) (rs1Field raw) (rs2Field raw)
  | 0b0010011#7 =>
    match selectOpImm (funct3 raw) with
    | some f => some (f (rdField raw) (rs1Field raw) (immI raw))
    | none =>
      (selectShiftImm (funct7 raw) (funct3 raw)).map fun f => f (rdField raw) (rs1Field raw) (shamtField raw)
  | 0b0000011#7 => (selectLoad (funct3 raw)).map fun f => f (rdField raw) (rs1Field raw) (immI raw)
  | 0b0100011#7 => (selectStore (funct3 raw)).map fun f => f (rs1Field raw) (rs2Field raw) (immS raw)
  | 0b1100011#7 => (selectBranch (funct3 raw)).map fun f => f (rs1Field raw) (rs2Field raw) (immB raw)
  | 0b1101111#7 => some (.jal (rdField raw) (immJ raw))
  | 0b1100111#7 => (selectJalr (funct3 raw)).map fun f => f (rdField raw) (rs1Field raw) (immI raw)
  | 0b1110011#7 => selectSystem raw
  | _ => none

/-- The decoder (R70): pure, total, every word an instruction or IllegalEncoding with the word (R72, R80, R81). -/
def decode (raw : Word) : DecodeResult :=
  match decodeInstr raw with
  | some i => .instr i
  | none => .illegalEncoding raw

/-! ## The encoder (R62): one function per format, then one row per instruction -/

/-- R-type, and the I-type shift form with `rs2` the shift amount (R62). -/
def rType (f7 : BitVec 7) (rs2 rs1 : RegIdx) (f3 : BitVec 3) (rd : RegIdx) (op : BitVec 7) : Word :=
  f7 ++ rs2 ++ rs1 ++ f3 ++ rd ++ op

/-- I-type: imm[11:0] in bits 31..20 (R62). -/
def iType (imm : Word) (rs1 : RegIdx) (f3 : BitVec 3) (rd : RegIdx) (op : BitVec 7) : Word :=
  imm.extractLsb' 0 12 ++ rs1 ++ f3 ++ rd ++ op

/-- S-type: imm[11:5] in bits 31..25, imm[4:0] in bits 11..7 (R62). -/
def sType (imm : Word) (rs2 rs1 : RegIdx) (f3 : BitVec 3) (op : BitVec 7) : Word :=
  imm.extractLsb' 5 7 ++ rs2 ++ rs1 ++ f3 ++ imm.extractLsb' 0 5 ++ op

/-- B-type: imm[12], imm[10:5] above the registers, imm[4:1], imm[11] below them (R62). -/
def bType (imm : Word) (rs2 rs1 : RegIdx) (f3 : BitVec 3) (op : BitVec 7) : Word :=
  imm.extractLsb' 12 1 ++ imm.extractLsb' 5 6 ++ rs2 ++ rs1 ++ f3 ++ imm.extractLsb' 1 4 ++ imm.extractLsb' 11 1 ++ op

/-- J-type: imm[20], imm[10:1], imm[11], imm[19:12] (R62). -/
def jType (imm : Word) (rd : RegIdx) (op : BitVec 7) : Word :=
  imm.extractLsb' 20 1 ++ imm.extractLsb' 1 10 ++ imm.extractLsb' 11 1 ++ imm.extractLsb' 12 8 ++ rd ++ op

/-- The word of an instruction, from the tables R75 to R80. On an instruction that is not well-formed it drops the immediate
bits its format has no room for. -/
def encode : Instr → Word
  | .add rd rs1 rs2 => rType 0b0000000 rs2 rs1 0b000 rd 0b0110011
  | .sub rd rs1 rs2 => rType 0b0100000 rs2 rs1 0b000 rd 0b0110011
  | .sll rd rs1 rs2 => rType 0b0000000 rs2 rs1 0b001 rd 0b0110011
  | .slt rd rs1 rs2 => rType 0b0000000 rs2 rs1 0b010 rd 0b0110011
  | .sltu rd rs1 rs2 => rType 0b0000000 rs2 rs1 0b011 rd 0b0110011
  | .xor rd rs1 rs2 => rType 0b0000000 rs2 rs1 0b100 rd 0b0110011
  | .srl rd rs1 rs2 => rType 0b0000000 rs2 rs1 0b101 rd 0b0110011
  | .sra rd rs1 rs2 => rType 0b0100000 rs2 rs1 0b101 rd 0b0110011
  | .or rd rs1 rs2 => rType 0b0000000 rs2 rs1 0b110 rd 0b0110011
  | .and rd rs1 rs2 => rType 0b0000000 rs2 rs1 0b111 rd 0b0110011
  | .addi rd rs1 imm => iType imm rs1 0b000 rd 0b0010011
  | .slti rd rs1 imm => iType imm rs1 0b010 rd 0b0010011
  | .sltiu rd rs1 imm => iType imm rs1 0b011 rd 0b0010011
  | .xori rd rs1 imm => iType imm rs1 0b100 rd 0b0010011
  | .ori rd rs1 imm => iType imm rs1 0b110 rd 0b0010011
  | .andi rd rs1 imm => iType imm rs1 0b111 rd 0b0010011
  | .slli rd rs1 shamt => rType 0b0000000 shamt rs1 0b001 rd 0b0010011
  | .srli rd rs1 shamt => rType 0b0000000 shamt rs1 0b101 rd 0b0010011
  | .srai rd rs1 shamt => rType 0b0100000 shamt rs1 0b101 rd 0b0010011
  | .lb rd rs1 imm => iType imm rs1 0b000 rd 0b0000011
  | .lh rd rs1 imm => iType imm rs1 0b001 rd 0b0000011
  | .lw rd rs1 imm => iType imm rs1 0b010 rd 0b0000011
  | .lbu rd rs1 imm => iType imm rs1 0b100 rd 0b0000011
  | .lhu rd rs1 imm => iType imm rs1 0b101 rd 0b0000011
  | .sb rs1 rs2 imm => sType imm rs2 rs1 0b000 0b0100011
  | .sh rs1 rs2 imm => sType imm rs2 rs1 0b001 0b0100011
  | .sw rs1 rs2 imm => sType imm rs2 rs1 0b010 0b0100011
  | .jal rd imm => jType imm rd 0b1101111
  | .jalr rd rs1 imm => iType imm rs1 0b000 rd 0b1100111
  | .beq rs1 rs2 imm => bType imm rs2 rs1 0b000 0b1100011
  | .bne rs1 rs2 imm => bType imm rs2 rs1 0b001 0b1100011
  | .blt rs1 rs2 imm => bType imm rs2 rs1 0b100 0b1100011
  | .bge rs1 rs2 imm => bType imm rs2 rs1 0b101 0b1100011
  | .bltu rs1 rs2 imm => bType imm rs2 rs1 0b110 0b1100011
  | .bgeu rs1 rs2 imm => bType imm rs2 rs1 0b111 0b1100011
  | .ecall => 0x00000073
  | .ebreak => 0x00100073

/-! ## The decode table (R73): 37 rows; a word matches a row when `(raw & mask) == pattern` -/

/-- One row of the decode table (R73). -/
structure DecodeRow where
  mnemonic : String
  mask : Word
  pattern : Word
  deriving DecidableEq, Repr

/-- `(raw & mask) == pattern` (R73). -/
def DecodeRow.matchesWord (row : DecodeRow) (raw : Word) : Bool := raw &&& row.mask == row.pattern

/-- OP (R75). -/
def opRows : List DecodeRow :=
  [⟨"ADD", 0xFE00707F, 0x00000033⟩, ⟨"SUB", 0xFE00707F, 0x40000033⟩, ⟨"SLL", 0xFE00707F, 0x00001033⟩,
   ⟨"SLT", 0xFE00707F, 0x00002033⟩, ⟨"SLTU", 0xFE00707F, 0x00003033⟩, ⟨"XOR", 0xFE00707F, 0x00004033⟩,
   ⟨"SRL", 0xFE00707F, 0x00005033⟩, ⟨"SRA", 0xFE00707F, 0x40005033⟩, ⟨"OR", 0xFE00707F, 0x00006033⟩,
   ⟨"AND", 0xFE00707F, 0x00007033⟩]

/-- OP-IMM (R76). -/
def opImmRows : List DecodeRow :=
  [⟨"ADDI", 0x0000707F, 0x00000013⟩, ⟨"SLTI", 0x0000707F, 0x00002013⟩, ⟨"SLTIU", 0x0000707F, 0x00003013⟩,
   ⟨"XORI", 0x0000707F, 0x00004013⟩, ⟨"ORI", 0x0000707F, 0x00006013⟩, ⟨"ANDI", 0x0000707F, 0x00007013⟩,
   ⟨"SLLI", 0xFE00707F, 0x00001013⟩, ⟨"SRLI", 0xFE00707F, 0x00005013⟩, ⟨"SRAI", 0xFE00707F, 0x40005013⟩]

/-- LOAD and STORE (R77, R78). -/
def memoryRows : List DecodeRow :=
  [⟨"LB", 0x0000707F, 0x00000003⟩, ⟨"LH", 0x0000707F, 0x00001003⟩, ⟨"LW", 0x0000707F, 0x00002003⟩,
   ⟨"LBU", 0x0000707F, 0x00004003⟩, ⟨"LHU", 0x0000707F, 0x00005003⟩, ⟨"SB", 0x0000707F, 0x00000023⟩,
   ⟨"SH", 0x0000707F, 0x00001023⟩, ⟨"SW", 0x0000707F, 0x00002023⟩]

/-- BRANCH, JAL, JALR (R79) and SYSTEM (R80). -/
def controlRows : List DecodeRow :=
  [⟨"BEQ", 0x0000707F, 0x00000063⟩, ⟨"BNE", 0x0000707F, 0x00001063⟩, ⟨"BLT", 0x0000707F, 0x00004063⟩,
   ⟨"BGE", 0x0000707F, 0x00005063⟩, ⟨"BLTU", 0x0000707F, 0x00006063⟩, ⟨"BGEU", 0x0000707F, 0x00007063⟩,
   ⟨"JAL", 0x0000007F, 0x0000006F⟩, ⟨"JALR", 0x0000707F, 0x00000067⟩, ⟨"ECALL", 0xFFFFFFFF, 0x00000073⟩,
   ⟨"EBREAK", 0xFFFFFFFF, 0x00100073⟩]

/-- The 37 rows (R73). The decoder does not use them; the statements hold the decoder against them. -/
def decodeTable : List DecodeRow := opRows ++ opImmRows ++ memoryRows ++ controlRows

/-! ## The decoder over bytes, and the host's entry -/

/-- A word from its four bytes, lowest address first: little-endian (20_memory.md R45, R47; R61). -/
def wordOfBytes (b0 b1 b2 b3 : Byte) : Word := b3 ++ b2 ++ b1 ++ b0

/-- Byte `k` of a 32-bit value: `v[8k+7:8k]` (20_memory.md R46). -/
def byteOf (v : Word) (k : Nat) : Byte := v.extractLsb' (8 * k) 8

/-- The decoder over the four bytes that stand at ascending addresses from the pc. -/
def decodeBytes (b0 b1 b2 b3 : Byte) : DecodeResult := decode (wordOfBytes b0 b1 b2 b3)

/-- What the decoder reads from an instruction of `nbits` bits `w` (the host's numbering: bit 0 the least significant bit of
the word; bits above `nbits` are 0). The word's bytes are laid out little-endian and given to the decoder. -/
def decodeTableWord (nbits w : Nat) : Option Instr :=
  let raw : Word := BitVec.ofNat 32 (w % 2 ^ nbits)
  match decodeBytes (byteOf raw 0) (byteOf raw 1) (byteOf raw 2) (byteOf raw 3) with
  | .instr i => some i
  | .illegalEncoding _ => none

end Sys2Proof
end

