-- ==== Sys2Proof/Machine/State.lean ====
section
/-! DEFINITION. The state (10_state.md R35 with 20_memory.md R43): the registers, the pc, the status register, the
configuration, and the memory the caller lends. Plain data. INVENTORY.md, State, lists each piece with its rule. -/

namespace Sys2Proof.Machine

/-- What an access was for: the class of a fault record (60_exceptions.md R223). -/
inductive AccessClass where
  | fetch
  | load
  | store
  deriving DecidableEq, Repr

/-- Which instruction asked for the halt (60_exceptions.md R222). -/
inductive HaltCause where
  | ecall
  | ebreak
  deriving DecidableEq, Repr

/-- The three fault kinds of R221, which stay apart and have no numeric code (R227). -/
inductive FaultKind where
  | illegalEncoding
  | misalignedAccess
  | outOfBoundsAccess
  deriving DecidableEq, Repr

/-- A fault record (60_exceptions.md R223). Every record holds ipc, the instruction's address. -/
inductive FaultRecord where
  /-- A fetched word that is none of the 37 instructions: its address and the word. Its class is Fetch. -/
  | illegalEncoding (ipc raw : Word)
  /-- An access that breaks its alignment: class, instruction's address, address accessed. -/
  | misalignedAccess (cls : AccessClass) (ipc addr : Word)
  /-- An access with a byte the memory does not admit: class, instruction's address, address accessed. -/
  | outOfBoundsAccess (cls : AccessClass) (ipc addr : Word)
  deriving DecidableEq, Repr

/-- The kind of a record (R223). -/
def FaultRecord.kind : FaultRecord → FaultKind
  | .illegalEncoding _ _ => .illegalEncoding
  | .misalignedAccess _ _ _ => .misalignedAccess
  | .outOfBoundsAccess _ _ _ => .outOfBoundsAccess

/-- The class of a record; an illegal encoding's is Fetch (R223). -/
def FaultRecord.cls : FaultRecord → AccessClass
  | .illegalEncoding _ _ => .fetch
  | .misalignedAccess c _ _ => c
  | .outOfBoundsAccess c _ _ => c

/-- The instruction's address in a record (R223). -/
def FaultRecord.ipc : FaultRecord → Word
  | .illegalEncoding ipc _ => ipc
  | .misalignedAccess _ ipc _ => ipc
  | .outOfBoundsAccess _ ipc _ => ipc

/-- The status register (10_state.md R28). -/
inductive Status where
  | running
  | halted (cause : HaltCause) (ipc : Word)
  | faulted (record : FaultRecord)
  deriving DecidableEq, Repr

/-- One range of admitted byte addresses: the reference memory's window, MEM_BASE and MEM_SIZE (20_memory.md R42). -/
structure Window where
  base : Nat
  size : Nat
  deriving DecidableEq, Repr

/-- The memory (20_memory.md R41 to R43): the admitted addresses (MEM_ADMIT, as ranges) and the bytes. `cells` lists the
bytes the host loaded or a store wrote, addresses strictly rising; an address it does not list holds its unknown initial
byte. -/
structure Memory where
  windows : List Window
  cells : List Host.Cell
  deriving DecidableEq, Repr

/-- The whole state of a step. -/
structure State where
  /-- x1 to x31, x1 first; x0 has no storage (10_state.md R20, R21, R35). -/
  regs : Vector Word 31
  /-- The program counter (R25). -/
  pc : Word
  /-- The status register (R28). -/
  status : Status
  /-- The configuration given at construction (R30). -/
  config : Configuration
  /-- The memory the caller lends to every step (20_memory.md R40, R43). -/
  mem : Memory
  deriving DecidableEq, Repr

/-- Why a step has no successor. Only a stopped core gives one: a step that raises answers a next state that holds the new
status (40_execution_engine.md R102 to R104; log 1). -/
inductive Fault where
  /-- Raised by `step` alone, on a core whose status is Halted: it returns the stored outcome and nothing changes (R104).
  Safe: the spec gives such a core no successor. -/
  | coreHalted (cause : HaltCause) (ipc : Word)
  /-- Raised by `step` alone, on a core whose status is Faulted: it returns the stored outcome and nothing changes (R104).
  Safe: the spec gives such a core no successor. -/
  | coreFaulted (record : FaultRecord)
  deriving DecidableEq, Repr

/-- Why the model gives no meaning. -/
inductive Refusal where
  /-- Raised by an arm of `exec` for an instruction that has no meaning yet; no arm does. Safe. -/
  | notModelled (mnemonic : String)
  /-- Raised by `step` alone, on a configuration that is not the default: the source gives it no meaning and a model must
  refuse it (10_state.md R30, D23, U7). Safe. -/
  | nonDefaultConfiguration
  deriving DecidableEq, Repr

/-- The outcome of a step or of a meaning. -/
abbrev Outcome := Host.Outcome State Fault Refusal

/-- The state right after construction with no arguments given (10_state.md R36 to R39): registers 0, pc 0, Running, default
configuration. The memory is the caller's: one window over the whole address space, nothing loaded (log 2, log 3). -/
def State.reset : State where
  regs := Vector.replicate 31 0
  pc := 0
  status := .running
  config := .rv32iOnly
  mem := { windows := [⟨0, 2 ^ 32⟩], cells := [] }

end Sys2Proof.Machine
end

