-- ==== Sys2Proof/Machine/Ops.lean ====
section
/-! DEFINITION. The shared operations: bytes and admission, the six operations of the Memory Interface (20_memory.md R40 to
R46), the registers (10_state.md R21), the pc, and raising a stop (40_execution_engine.md R103). -/

namespace Sys2Proof.Machine

/-! ## Bytes -/

/-- What an address with no cell reads as: its byte at the first step, which the spec leaves unknown
(20_memory.md R54; 70_reset_and_hazards.md R253, U6; log 3). -/
def unlistedByte (a : Nat) : Byte := Config.memInit a

/-- The byte of the first cell at `a`, if there is one. -/
def readCell : List Host.Cell → Nat → Option Byte
  | [], _ => none
  | (b, v) :: rest, a => if b = a then some v else readCell rest a

/-- The cells without those at `a`. -/
def eraseCell (cells : List Host.Cell) (a : Nat) : List Host.Cell := cells.filter fun c => c.1 != a

/-- The cells with one more, before the first at a greater address. -/
def insertCell : List Host.Cell → Nat → Byte → List Host.Cell
  | [], a, v => [(a, v)]
  | (b, w) :: rest, a, v => if a < b then (a, v) :: (b, w) :: rest else (b, w) :: insertCell rest a v

/-- The cells after one byte is written. A written byte is always listed: an unlisted one is unknown, so no written byte is
known to equal it. -/
def writeCell (cells : List Host.Cell) (a : Nat) (v : Byte) : List Host.Cell := insertCell (eraseCell cells a) a v

/-- The byte at an address: M[a] (20_memory.md R43, R54). -/
def Memory.byteAt (m : Memory) (a : Nat) : Byte := (readCell m.cells a).getD (unlistedByte a)

/-- M[a] <- v. -/
def Memory.setByte (m : Memory) (a : Nat) (v : Byte) : Memory := { m with cells := writeCell m.cells a v }

/-! ## Admission (R41, R42) -/

/-- MEM_BASE <= a < MEM_BASE + MEM_SIZE, as unbounded integers (R42). -/
def Window.holds (w : Window) (a : Nat) : Bool := decide (w.base ≤ a ∧ a < w.base + w.size)

/-- Is the byte address in MEM_ADMIT? An address is a 32-bit number (R40), so none past the top is (log 9). -/
def Memory.admitsByte (m : Memory) (a : Nat) : Bool := decide (a < 2 ^ 32) && m.windows.any fun w => w.holds a

/-- An access of `n` bytes at `addr` is admitted when every byte of it is (R41, D14). -/
def Memory.admits (m : Memory) (addr : Word) (n : Nat) : Bool :=
  (List.range n).all fun k => m.admitsByte (addr.toNat + k)

/-- The reference memory with nothing loaded: one window (R42), every byte of it unknown (70_reset_and_hazards.md R253). -/
def Memory.reference (base size : Nat) : Memory := { windows := [⟨base, size⟩], cells := [] }

/-- The canonical form: addresses strictly rising, only admitted addresses listed (R43), and no window past the top of the
address space (R42, D18). Two memories with the same known bytes have the same cells (log 3). -/
abbrev Memory.wf (m : Memory) : Prop :=
  m.cells.Pairwise (fun c d => c.1 < d.1) ∧
    (∀ c ∈ m.cells, m.admitsByte c.1 = true) ∧ ∀ w ∈ m.windows, w.base + w.size ≤ 2 ^ 32

/-! ## The Memory Interface (R40); `none` is its out-of-bounds fault -/

/-- `load8` (R45). -/
def Memory.load8 (m : Memory) (addr : Word) : Option Byte :=
  if m.admits addr 1 then some (m.byteAt addr.toNat) else none

/-- `load16`: M[addr+1] ++ M[addr] (R45). -/
def Memory.load16 (m : Memory) (addr : Word) : Option Half :=
  if m.admits addr 2 then some (m.byteAt (addr.toNat + 1) ++ m.byteAt addr.toNat) else none

/-- `load32`: M[addr+3] ++ M[addr+2] ++ M[addr+1] ++ M[addr] (R45). -/
def Memory.load32 (m : Memory) (addr : Word) : Option Word :=
  if m.admits addr 4 then
    some (wordOfBytes (m.byteAt addr.toNat) (m.byteAt (addr.toNat + 1)) (m.byteAt (addr.toNat + 2))
      (m.byteAt (addr.toNat + 3)))
  else none

/-- M[a+k] <- v[8k+7:8k] for k = 0 .. n-1 (R46). -/
def Memory.setBytes (m : Memory) (a : Nat) (v : Word) : Nat → Memory
  | 0 => m
  | n + 1 => (m.setBytes a v n).setByte (a + n) (byteOf v n)

/-- `store8`: the low 8 bits of `v` (R46); nothing is written when the access is not admitted. -/
def Memory.store8 (m : Memory) (addr v : Word) : Option Memory :=
  if m.admits addr 1 then some (m.setBytes addr.toNat v 1) else none

/-- `store16`: the low 16 bits of `v` (R46). -/
def Memory.store16 (m : Memory) (addr v : Word) : Option Memory :=
  if m.admits addr 2 then some (m.setBytes addr.toNat v 2) else none

/-- `store32` (R46). -/
def Memory.store32 (m : Memory) (addr v : Word) : Option Memory :=
  if m.admits addr 4 then some (m.setBytes addr.toNat v 4) else none

/-! ## Registers and pc -/

/-- `x[i]`: x0 always yields 0 (10_state.md R21; 00_scope.md R13). -/
def State.x (s : State) (i : RegIdx) : Word :=
  if h : i = 0#5 then 0 else s.regs[i.toNat - 1]'(by omega)

/-- `x[i] <- v`: discarded when i = 0 (10_state.md R21; 00_scope.md R13). -/
def State.setX (s : State) (i : RegIdx) (v : Word) : State :=
  if h : i = 0#5 then s else { s with regs := s.regs.set (i.toNat - 1) v (by omega) }

/-- `pc <- t`. -/
def State.setPc (s : State) (t : Word) : State := { s with pc := t }

/-- The memory after a store. -/
def State.setMem (s : State) (m : Memory) : State := { s with mem := m }

/-! ## Raising a stop (40_execution_engine.md R103; 60_exceptions.md R232)

There is no trap: a raise sets the status register and ends the step. Nothing is saved elsewhere, no vector is taken, and no
return exists (R232, R234). In these operations the state is the one before the step's default pc write, so its pc is ipc. -/

/-- The pc a stop leaves: ipc or ipc + 4. -/
def PcAfter.resolve (p : PcAfter) (ipc : Word) : Word :=
  match p with
  | .instr => ipc
  | .next => ipc + 4

/-- `raise`: status becomes the stop, the pc is left as `p` says, registers and memory are unchanged (R103, D8). -/
def raise (stop : Status) (p : PcAfter) (s : State) : State :=
  { s with status := stop, pc := PcAfter.resolve p s.pc }

/-- A fetch or decode fault comes before the default pc write, so the pc is left at ipc (R103). -/
def raiseFetchFault (r : FaultRecord) (s : State) : State := raise (.faulted r) .instr s

/-- A load or store fault leaves the pc that PC_AFTER_DATA_FAULT says (R103, D9). -/
def raiseDataFault (r : FaultRecord) (s : State) : State := raise (.faulted r) Config.pcAfterDataFault s

/-- HaltRequested(cause, ipc): the pc is the one PC_AFTER_HALT says (R103, D10; 44_system.md R200). -/
def raiseHalt (cause : HaltCause) (s : State) : State := raise (.halted cause s.pc) Config.pcAfterHalt s

/-! ## How an instruction completes -/

/-- `x[rd] <- v` and the default successor ipc + 4 (40_execution_engine.md R100). -/
def writeResult (rd : RegIdx) (v : Word) (s : State) : Outcome := .next ((s.setX rd v).setPc (s.pc + 4))

/-- A load of `n` bytes at `addr` (42_load_store.md R160): alignment first, then admission, then the write of the extended
value. -/
def loadInto (rd : RegIdx) (addr : Word) (n : Nat) (value : Option Word) (s : State) : Outcome :=
  if addr.toNat % n ≠ 0 then .next (raiseDataFault (.misalignedAccess .load s.pc addr) s)
  else
    match value with
    | none => .next (raiseDataFault (.outOfBoundsAccess .load s.pc addr) s)
    | some v => writeResult rd v s

/-- A store of `n` bytes at `addr` (R166): alignment first, then admission; a faulting store writes nothing. -/
def storeTo (addr : Word) (n : Nat) (written : Option Memory) (s : State) : Outcome :=
  if addr.toNat % n ≠ 0 then .next (raiseDataFault (.misalignedAccess .store s.pc addr) s)
  else
    match written with
    | none => .next (raiseDataFault (.outOfBoundsAccess .store s.pc addr) s)
    | some m => .next ((s.setMem m).setPc (s.pc + 4))

/-- A jump: the link ipc + 4 into rd, the pc to the target, which is not checked (43_control_transfer.md R180, R181). -/
def jumpTo (rd : RegIdx) (target : Word) (s : State) : Outcome := .next ((s.setX rd (s.pc + 4)).setPc target)

/-- A branch: taken, the pc goes to the target, else to ipc + 4; the target is not checked (R180, R181). -/
def branchTo (taken : Bool) (target : Word) (s : State) : Outcome :=
  .next (s.setPc (if taken then target else s.pc + 4))

/-- A step on a stopped core returns the stored outcome and changes nothing (40_execution_engine.md R104). -/
def stoppedOutcome : Status → Option Fault
  | .running => none
  | .halted cause ipc => some (.coreHalted cause ipc)
  | .faulted record => some (.coreFaulted record)

end Sys2Proof.Machine
end

