-- ==== Sys2Proof/Machine/Flags.lean ====
section
/-! DEFINITION. The core has no flags, condition codes or predicates (10_state.md R31): a comparison writes a register (SLT and
its forms) or decides a branch at once. These are the comparisons. -/

namespace Sys2Proof.Machine

/-- s(a) < s(b): two's-complement (00_scope.md R12; 41_integer_computational.md R126). -/
def lessSigned (a b : Word) : Bool := decide (a.toInt < b.toInt)

/-- u(a) < u(b) (00_scope.md R12; R127). -/
def lessUnsigned (a b : Word) : Bool := decide (a.toNat < b.toNat)

/-- The value a comparison writes: 1 or 0 (R126, R127, R140). -/
def conditionWord (c : Bool) : Word := if c then 1 else 0

end Sys2Proof.Machine
end

