-- ==== Sys2Proof/Machine/Operands.lean ====
section
/-! DEFINITION. The operand forms and addresses of the instructions: shift amounts, the effective address, targets, and the
widening of a loaded value. -/

namespace Sys2Proof.Machine

/-- The shift amount of SLL, SRL, SRA: the low 5 bits of the operand (41_integer_computational.md R120, R128). -/
def shiftAmount (v : Word) : Nat := (v.extractLsb' 0 5).toNat

/-- The effective address of a load or store: x[rs1] + imm modulo 2^32, the only addressing mode (42_load_store.md R160,
R166). -/
def effectiveAddress (rs1 : RegIdx) (imm : Word) (s : State) : Word := s.x rs1 + imm

/-- The target of JAL and of a taken branch: ipc + imm modulo 2^32 (43_control_transfer.md R180, R182, R184). -/
def relativeTarget (imm : Word) (s : State) : Word := s.pc + imm

/-- The target of JALR: (x[rs1] + imm) & 0xFFFFFFFE (R183). -/
def registerTarget (rs1 : RegIdx) (imm : Word) (s : State) : Word := (s.x rs1 + imm) &&& 0xFFFFFFFE#32

/-- LB: the byte at `addr`, sign-extended (R161). -/
def loadByteSigned (addr : Word) (s : State) : Option Word := (s.mem.load8 addr).map fun b => b.signExtend 32

/-- LH: the half-word at `addr`, sign-extended (R162). -/
def loadHalfSigned (addr : Word) (s : State) : Option Word := (s.mem.load16 addr).map fun h => h.signExtend 32

/-- LW: the word at `addr` (R163). -/
def loadWord (addr : Word) (s : State) : Option Word := s.mem.load32 addr

/-- LBU: the byte at `addr`, zero-extended (R164). -/
def loadByteUnsigned (addr : Word) (s : State) : Option Word := (s.mem.load8 addr).map fun b => b.zeroExtend 32

/-- LHU: the half-word at `addr`, zero-extended (R165). -/
def loadHalfUnsigned (addr : Word) (s : State) : Option Word := (s.mem.load16 addr).map fun h => h.zeroExtend 32

end Sys2Proof.Machine
end

