-- ==== Sys2Proof/Machine/ControlTransfer.lean ====
section
/-! DEFINITION. The eight control-transfer instructions (43_control_transfer.md): every target is computed from ipc or from a
register read before the link is written, and none is checked (R180, R181). -/

namespace Sys2Proof.Machine

/-- JAL: link ipc + 4, target ipc + imm (R182). -/
def execJal (rd : RegIdx) (imm : Word) (s : State) : Outcome :=
  jumpTo rd (relativeTarget imm s) s

/-- JALR: link ipc + 4, target (x[rs1] + imm) with bit 0 cleared (R183). -/
def execJalr (rd rs1 : RegIdx) (imm : Word) (s : State) : Outcome :=
  jumpTo rd (registerTarget rs1 imm s) s

/-- BEQ: taken when x[rs1] == x[rs2] (R184). -/
def execBeq (rs1 rs2 : RegIdx) (imm : Word) (s : State) : Outcome :=
  branchTo (decide (s.x rs1 = s.x rs2)) (relativeTarget imm s) s

/-- BNE: taken when x[rs1] != x[rs2] (R185). -/
def execBne (rs1 rs2 : RegIdx) (imm : Word) (s : State) : Outcome :=
  branchTo (decide (s.x rs1 ≠ s.x rs2)) (relativeTarget imm s) s

/-- BLT: taken when s(x[rs1]) < s(x[rs2]) (R186). -/
def execBlt (rs1 rs2 : RegIdx) (imm : Word) (s : State) : Outcome :=
  branchTo (lessSigned (s.x rs1) (s.x rs2)) (relativeTarget imm s) s

/-- BGE: taken when s(x[rs1]) >= s(x[rs2]) (R187). -/
def execBge (rs1 rs2 : RegIdx) (imm : Word) (s : State) : Outcome :=
  branchTo (!lessSigned (s.x rs1) (s.x rs2)) (relativeTarget imm s) s

/-- BLTU: taken when u(x[rs1]) < u(x[rs2]) (R188). -/
def execBltu (rs1 rs2 : RegIdx) (imm : Word) (s : State) : Outcome :=
  branchTo (lessUnsigned (s.x rs1) (s.x rs2)) (relativeTarget imm s) s

/-- BGEU: taken when u(x[rs1]) >= u(x[rs2]) (R189). -/
def execBgeu (rs1 rs2 : RegIdx) (imm : Word) (s : State) : Outcome :=
  branchTo (!lessUnsigned (s.x rs1) (s.x rs2)) (relativeTarget imm s) s

end Sys2Proof.Machine
end

