-- ==== Sys2Proof/Machine/IntegerComputational.lean ====
section
/-! DEFINITION. The 19 integer computational instructions (41_integer_computational.md). All follow R120: sources are read
first, rd is written (discarded for x0), no flag, no exception of their own, pc ends at ipc + 4. -/

namespace Sys2Proof.Machine

/-- ADD: x[rs1] + x[rs2] modulo 2^32 (R121). -/
def execAdd (rd rs1 rs2 : RegIdx) (s : State) : Outcome :=
  writeResult rd (s.x rs1 + s.x rs2) s

/-- SUB: x[rs1] - x[rs2] modulo 2^32 (R122). -/
def execSub (rd rs1 rs2 : RegIdx) (s : State) : Outcome :=
  writeResult rd (s.x rs1 - s.x rs2) s

/-- AND (R123). -/
def execAnd (rd rs1 rs2 : RegIdx) (s : State) : Outcome :=
  writeResult rd (s.x rs1 &&& s.x rs2) s

/-- OR (R124). -/
def execOr (rd rs1 rs2 : RegIdx) (s : State) : Outcome :=
  writeResult rd (s.x rs1 ||| s.x rs2) s

/-- XOR (R125). -/
def execXor (rd rs1 rs2 : RegIdx) (s : State) : Outcome :=
  writeResult rd (s.x rs1 ^^^ s.x rs2) s

/-- SLT: 1 when s(x[rs1]) < s(x[rs2]), else 0 (R126). -/
def execSlt (rd rs1 rs2 : RegIdx) (s : State) : Outcome :=
  writeResult rd (conditionWord (lessSigned (s.x rs1) (s.x rs2))) s

/-- SLTU: 1 when u(x[rs1]) < u(x[rs2]), else 0 (R127). -/
def execSltu (rd rs1 rs2 : RegIdx) (s : State) : Outcome :=
  writeResult rd (conditionWord (lessUnsigned (s.x rs1) (s.x rs2))) s

/-- SLL: shift left by x[rs2][4:0], zero-filled (R128). -/
def execSll (rd rs1 rs2 : RegIdx) (s : State) : Outcome :=
  writeResult rd (s.x rs1 <<< shiftAmount (s.x rs2)) s

/-- SRL: shift right by x[rs2][4:0], zero-filled (R129). -/
def execSrl (rd rs1 rs2 : RegIdx) (s : State) : Outcome :=
  writeResult rd (s.x rs1 >>> shiftAmount (s.x rs2)) s

/-- SRA: shift right by x[rs2][4:0], filled with x[rs1][31] (R130). -/
def execSra (rd rs1 rs2 : RegIdx) (s : State) : Outcome :=
  writeResult rd ((s.x rs1).sshiftRight (shiftAmount (s.x rs2))) s

/-- ADDI: x[rs1] + imm modulo 2^32 (R131). -/
def execAddi (rd rs1 : RegIdx) (imm : Word) (s : State) : Outcome :=
  writeResult rd (s.x rs1 + imm) s

/-- ANDI (R132). -/
def execAndi (rd rs1 : RegIdx) (imm : Word) (s : State) : Outcome :=
  writeResult rd (s.x rs1 &&& imm) s

/-- ORI (R133). -/
def execOri (rd rs1 : RegIdx) (imm : Word) (s : State) : Outcome :=
  writeResult rd (s.x rs1 ||| imm) s

/-- XORI (R134). -/
def execXori (rd rs1 : RegIdx) (imm : Word) (s : State) : Outcome :=
  writeResult rd (s.x rs1 ^^^ imm) s

/-- SLTI: 1 when s(x[rs1]) < s(imm), else 0 (R135). -/
def execSlti (rd rs1 : RegIdx) (imm : Word) (s : State) : Outcome :=
  writeResult rd (conditionWord (lessSigned (s.x rs1) imm)) s

/-- SLTIU: 1 when u(x[rs1]) < u(imm), else 0; imm is sign-extended first (R136). -/
def execSltiu (rd rs1 : RegIdx) (imm : Word) (s : State) : Outcome :=
  writeResult rd (conditionWord (lessUnsigned (s.x rs1) imm)) s

/-- SLLI (R137). -/
def execSlli (rd rs1 : RegIdx) (shamt : Shamt) (s : State) : Outcome :=
  writeResult rd (s.x rs1 <<< shamt.toNat) s

/-- SRLI: zero-filled (R138). -/
def execSrli (rd rs1 : RegIdx) (shamt : Shamt) (s : State) : Outcome :=
  writeResult rd (s.x rs1 >>> shamt.toNat) s

/-- SRAI: filled with x[rs1][31] (R139). -/
def execSrai (rd rs1 : RegIdx) (shamt : Shamt) (s : State) : Outcome :=
  writeResult rd ((s.x rs1).sshiftRight shamt.toNat) s

end Sys2Proof.Machine
end

