-- ==== Sys2Proof/Machine/LoadStore.lean ====
section
/-! DEFINITION. The eight memory instructions (42_load_store.md): loads follow R160, stores R166. -/

namespace Sys2Proof.Machine

/-- LB: load byte, signed (R161). -/
def execLb (rd rs1 : RegIdx) (imm : Word) (s : State) : Outcome :=
  loadInto rd (effectiveAddress rs1 imm s) 1 (loadByteSigned (effectiveAddress rs1 imm s) s) s

/-- LH: load half-word, signed (R162). -/
def execLh (rd rs1 : RegIdx) (imm : Word) (s : State) : Outcome :=
  loadInto rd (effectiveAddress rs1 imm s) 2 (loadHalfSigned (effectiveAddress rs1 imm s) s) s

/-- LW: load word (R163). -/
def execLw (rd rs1 : RegIdx) (imm : Word) (s : State) : Outcome :=
  loadInto rd (effectiveAddress rs1 imm s) 4 (loadWord (effectiveAddress rs1 imm s) s) s

/-- LBU: load byte, unsigned (R164). -/
def execLbu (rd rs1 : RegIdx) (imm : Word) (s : State) : Outcome :=
  loadInto rd (effectiveAddress rs1 imm s) 1 (loadByteUnsigned (effectiveAddress rs1 imm s) s) s

/-- LHU: load half-word, unsigned (R165). -/
def execLhu (rd rs1 : RegIdx) (imm : Word) (s : State) : Outcome :=
  loadInto rd (effectiveAddress rs1 imm s) 2 (loadHalfUnsigned (effectiveAddress rs1 imm s) s) s

/-- SB: the low 8 bits of x[rs2] (R167). -/
def execSb (rs1 rs2 : RegIdx) (imm : Word) (s : State) : Outcome :=
  storeTo (effectiveAddress rs1 imm s) 1 (s.mem.store8 (effectiveAddress rs1 imm s) (s.x rs2)) s

/-- SH: the low 16 bits of x[rs2] (R168). -/
def execSh (rs1 rs2 : RegIdx) (imm : Word) (s : State) : Outcome :=
  storeTo (effectiveAddress rs1 imm s) 2 (s.mem.store16 (effectiveAddress rs1 imm s) (s.x rs2)) s

/-- SW: x[rs2] (R169). -/
def execSw (rs1 rs2 : RegIdx) (imm : Word) (s : State) : Outcome :=
  storeTo (effectiveAddress rs1 imm s) 4 (s.mem.store32 (effectiveAddress rs1 imm s) (s.x rs2)) s

end Sys2Proof.Machine
end

