-- ==== Sys2Proof/Machine/System.lean ====
section
/-! DEFINITION. ECALL and EBREAK (44_system.md R200): each raises HaltRequested(cause, ipc); no register is read or written, no
memory byte touched. -/

namespace Sys2Proof.Machine

/-- ECALL: `raise HaltRequested(Ecall, ipc)` (R201). -/
def execEcall (s : State) : Outcome := .next (raiseHalt .ecall s)

/-- EBREAK: `raise HaltRequested(Ebreak, ipc)` (R202). -/
def execEbreak (s : State) : Outcome := .next (raiseHalt .ebreak s)

end Sys2Proof.Machine
end

