-- ==== Sys2Proof/Machine/Fetch.lean ====
section
/-! DEFINITION. The fetch of a step (40_execution_engine.md R100): alignment, then a 32-bit load at the pc through the same
Memory Interface (D19); and the placing of a word where the next fetch reads it. -/

namespace Sys2Proof.Machine

/-- A fetched word, or the fetch fault. -/
inductive FetchResult where
  | word (raw : Word)
  | fault (record : FaultRecord)
  deriving DecidableEq, Repr

/-- The fetch: misaligned before out of bounds (R100, R229); a fetch fault's address is ipc (R223). -/
def fetch (s : State) : FetchResult :=
  if s.pc.toNat % 4 ≠ 0 then .fault (.misalignedAccess .fetch s.pc s.pc)
  else
    match s.mem.load32 s.pc with
    | none => .fault (.outOfBoundsAccess .fetch s.pc s.pc)
    | some raw => .word raw

/-- The fetched word decoded: IllegalEncoding is a fault with ipc and the word (R100, R224). -/
def fetchDecode (s : State) : Instr ⊕ FaultRecord :=
  match fetch s with
  | .fault r => .inr r
  | .word raw =>
    match decode raw with
    | .instr i => .inl i
    | .illegalEncoding w => .inr (.illegalEncoding s.pc w)

/-- The pc with its low two bits cleared: where a fetch is aligned (10_state.md R26). -/
def alignedPc (pc : Word) : Word := pc &&& 0xFFFFFFFC#32

/-- The memory with the four bytes at `pc` admitted. -/
def admitWord (m : Memory) (pc : Word) : Memory :=
  if m.admits pc 4 then m else { m with windows := m.windows ++ [⟨pc.toNat, 4⟩] }

/-- The memory with `w` loaded at `pc` by the host, little-endian (70_reset_and_hazards.md R253; 20_memory.md R47). -/
def placeWord (m : Memory) (pc w : Word) : Memory := (admitWord m pc).setBytes pc.toNat w 4

end Sys2Proof.Machine
end

