-- ==== Sys2Proof/Machine/Step.lean ====
section
/-! DEFINITION. One step (40_execution_engine.md R100), and the host's way of placing an instruction where it is fetched. -/

namespace Sys2Proof.Machine

/-- One step (R100): a non-default configuration is refused (10_state.md R30); a stopped core gives its stored outcome and has
no successor (R104); else fetch, decode and execute. A stop raised in the step is a next state that holds it (R102, R103). -/
def step (s : State) : Host.Outcome State Fault Refusal :=
  match s.config with
  | .nonDefault => .refused .nonDefaultConfiguration
  | .rv32iOnly =>
    match stoppedOutcome s.status with
    | some f => .fault f
    | none =>
      match fetchDecode s with
      | .inr r => .next (raiseFetchFault r s)
      | .inl i => exec i s

/-- The model's helper, not a move the host has (log 4; 40_execution_engine.md R104, R111, D24): `s` with an instruction of
`nbits` bits `w` where `step` fetches its next one, the word at the pc. The fetch also needs a
running core of the default configuration, an aligned pc and an admitted word; where `s` has these they are not changed
(log 4). -/
def State.withFetchWord (s : State) (nbits w : Nat) : State :=
  { s with
    pc := alignedPc s.pc
    status := .running
    config := .rv32iOnly
    mem := placeWord s.mem (alignedPc s.pc) (BitVec.ofNat 32 (w % 2 ^ nbits)) }

end Sys2Proof.Machine
end

