-- ==== Sys2Proof/Machine/HostInterface.lean ====
section
/-! DEFINITION. The host's surface (40_execution_engine.md R102, R105 to R112): construction, provisioning memory, one `step`
call, the `run` loop, inspection, and memory writes between calls. -/

namespace Sys2Proof.Machine

/-! ## Construction (10_state.md R36 to R39; 70_reset_and_hazards.md R250 to R252) -/

/-- A core built by the caller with INIT_PC (0 when not given) and INIT_REGS (0 when not given, index 0 discarded), over the
memory it will be lent. INIT_PC is not checked and the memory is not touched. -/
def State.construct (initPc : Option Word) (initRegs : List (RegIdx × Word)) (mem : Memory) : State :=
  initRegs.foldl (fun s p => s.setX p.1 p.2)
    { regs := Vector.replicate 31 0, pc := initPc.getD 0, status := .running, config := .rv32iOnly, mem := mem }

/-! ## Provisioning memory (R111; 20_memory.md R59; D24) -/

/-- The host writes one memory byte between calls. An address the memory does not admit has no byte (log 12). -/
def Memory.hostWrite (m : Memory) (a : Nat) (v : Byte) : Memory := if m.admitsByte a then m.setByte a v else m

/-- The host loads bytes from an address on (70_reset_and_hazards.md R253). -/
def Memory.hostLoad (m : Memory) (a : Nat) : List Byte → Memory
  | [] => m
  | b :: rest => (m.hostWrite a b).hostLoad (a + 1) rest

/-- A core whose memory the host has written to between calls: nothing else of the core changes (R111). -/
def State.hostWrite (s : State) (a : Nat) (v : Byte) : State := s.setMem (s.mem.hostWrite a v)

/-! ## Outcomes (R102) and inspection (R110) -/

/-- What one `step` call returns (R102). -/
inductive StepOutcome where
  | continued
  | halted (cause : HaltCause) (ipc : Word)
  | faulted (record : FaultRecord)
  deriving DecidableEq, Repr

/-- Halted and Faulted set the status register to the same value, so the outcome of a step is read from it (R102). -/
def statusOutcome : Status → StepOutcome
  | .running => .continued
  | .halted cause ipc => .halted cause ipc
  | .faulted record => .faulted record

/-- The stored outcome of a stopped core (R104). -/
def faultOutcome : Fault → StepOutcome
  | .coreHalted cause ipc => .halted cause ipc
  | .coreFaulted record => .faulted record

/-- The accessors of R110: a register, the pc, the last outcome. -/
def State.inspectReg (s : State) (i : RegIdx) : Word := s.x i
/-- The pc (R110). -/
def State.inspectPc (s : State) : Word := s.pc
/-- The last outcome, as the status register holds it (R110). DESIGN CHOICE (log 15): a core that has not yet stepped is
Running, so this answers Continued there; the spec gives no outcome before the first step. -/
def State.inspectOutcome (s : State) : StepOutcome := statusOutcome s.status

/-- One `step(M)` call: its outcome, and the core and memory after it (R100, R102, R104). -/
def stepCall (s : State) : Except Refusal (StepOutcome × State) :=
  match step s with
  | .next t => .ok (statusOutcome t.status, t)
  | .fault f => .ok (faultOutcome f, s)
  | .refused r => .error r

/-! ## The run loop (R105, R106) -/

/-- The condition that ended a run (R106). -/
inductive RunCondition where
  | exhausted
  | halted (cause : HaltCause) (ipc : Word)
  | faulted (record : FaultRecord)
  deriving DecidableEq, Repr

/-- `RunOutcome`: the count and the condition (R106). -/
structure RunOutcome where
  count : Nat
  condition : RunCondition
  deriving DecidableEq, Repr

/-- The count reported at a stop, after `n` steps that returned Continued (R105, D16). -/
def countAtStop (n : Nat) : Nat := if Config.runCountsStoppingStep then n + 1 else n

/-- The loop of R105 with `n` steps done and `left` to go (max = n + left). -/
def runLoop (n : Nat) (s : State) : (left : Nat) → Except Refusal (RunOutcome × State)
  | 0 => .ok (⟨n, .exhausted⟩, s)
  | left + 1 =>
    match stepCall s with
    | .error r => .error r
    | .ok (.continued, t) => runLoop (n + 1) t left
    | .ok (.halted cause ipc, t) => .ok (⟨countAtStop n, .halted cause ipc⟩, t)
    | .ok (.faulted record, t) => .ok (⟨countAtStop n, .faulted record⟩, t)

/-- `run(M, max_instructions)` (R105). -/
def run (s : State) (max : Nat) : Except Refusal (RunOutcome × State) := runLoop 0 s max

end Sys2Proof.Machine
end

