-- ==== Sys2Proof/Safety.lean ====
section
/-! DEFINITION. The terms the claims use: which register and how many bytes an instruction may write, what a step left alone,
how an instruction completes or raises, the shape of an instruction's rule, and the invariant of a run. -/

namespace Sys2Proof

/-- The register an instruction writes, where it has one (10_state.md R22): `rd` of every R-type, I-type arithmetic, load,
JAL and JALR instruction; stores, branches, ECALL and EBREAK write none. -/
def Instr.dest : Instr → Option RegIdx
  | .add rd _ _ | .sub rd _ _ | .and rd _ _ | .or rd _ _ | .xor rd _ _ => some rd
  | .slt rd _ _ | .sltu rd _ _ | .sll rd _ _ | .srl rd _ _ | .sra rd _ _ => some rd
  | .addi rd _ _ | .andi rd _ _ | .ori rd _ _ | .xori rd _ _ | .slti rd _ _ | .sltiu rd _ _ => some rd
  | .slli rd _ _ | .srli rd _ _ | .srai rd _ _ => some rd
  | .lb rd _ _ | .lh rd _ _ | .lw rd _ _ | .lbu rd _ _ | .lhu rd _ _ => some rd
  | .jal rd _ | .jalr rd _ _ => some rd
  | .sb _ _ _ | .sh _ _ _ | .sw _ _ _ => none
  | .beq _ _ _ | .bne _ _ _ | .blt _ _ _ | .bge _ _ _ | .bltu _ _ _ | .bgeu _ _ _ => none
  | .ecall | .ebreak => none

/-- The bytes a store writes (20_memory.md R44): 1 for SB, 2 for SH, 4 for SW; no other instruction stores. -/
def Instr.storeSize : Instr → Option Nat
  | .sb _ _ _ => some 1
  | .sh _ _ _ => some 2
  | .sw _ _ _ => some 4
  | .add _ _ _ | .sub _ _ _ | .and _ _ _ | .or _ _ _ | .xor _ _ _ => none
  | .slt _ _ _ | .sltu _ _ _ | .sll _ _ _ | .srl _ _ _ | .sra _ _ _ => none
  | .addi _ _ _ | .andi _ _ _ | .ori _ _ _ | .xori _ _ _ | .slti _ _ _ | .sltiu _ _ _ => none
  | .slli _ _ _ | .srli _ _ _ | .srai _ _ _ => none
  | .lb _ _ _ | .lh _ _ _ | .lw _ _ _ | .lbu _ _ _ | .lhu _ _ _ => none
  | .jal _ _ | .jalr _ _ _ => none
  | .beq _ _ _ | .bne _ _ _ | .blt _ _ _ | .bge _ _ _ | .bltu _ _ _ | .bgeu _ _ _ => none
  | .ecall | .ebreak => none

/-- The registers an instruction reads (10_state.md R22): rs1 of every instruction but JAL, ECALL and EBREAK; rs2 of every
R-type, store and branch instruction. -/
def Instr.sources : Instr → List RegIdx
  | .add _ rs1 rs2 | .sub _ rs1 rs2 | .and _ rs1 rs2 | .or _ rs1 rs2 | .xor _ rs1 rs2 => [rs1, rs2]
  | .slt _ rs1 rs2 | .sltu _ rs1 rs2 | .sll _ rs1 rs2 | .srl _ rs1 rs2 | .sra _ rs1 rs2 => [rs1, rs2]
  | .addi _ rs1 _ | .andi _ rs1 _ | .ori _ rs1 _ | .xori _ rs1 _ | .slti _ rs1 _ | .sltiu _ rs1 _ => [rs1]
  | .slli _ rs1 _ | .srli _ rs1 _ | .srai _ rs1 _ => [rs1]
  | .lb _ rs1 _ | .lh _ rs1 _ | .lw _ rs1 _ | .lbu _ rs1 _ | .lhu _ rs1 _ => [rs1]
  | .jal _ _ => []
  | .jalr _ rs1 _ => [rs1]
  | .sb rs1 rs2 _ | .sh rs1 rs2 _ | .sw rs1 rs2 _ => [rs1, rs2]
  | .beq rs1 rs2 _ | .bne rs1 rs2 _ | .blt rs1 rs2 _ | .bge rs1 rs2 _ | .bltu rs1 rs2 _ | .bgeu rs1 rs2 _ => [rs1, rs2]
  | .ecall | .ebreak => []

/-- The eight control-transfer instructions (43_control_transfer.md). -/
def Instr.isControlTransfer : Instr → Bool
  | .jal _ _ | .jalr _ _ _ => true
  | .beq _ _ _ | .bne _ _ _ | .blt _ _ _ | .bge _ _ _ | .bltu _ _ _ | .bgeu _ _ _ => true
  | .add _ _ _ | .sub _ _ _ | .and _ _ _ | .or _ _ _ | .xor _ _ _ => false
  | .slt _ _ _ | .sltu _ _ _ | .sll _ _ _ | .srl _ _ _ | .sra _ _ _ => false
  | .addi _ _ _ | .andi _ _ _ | .ori _ _ _ | .xori _ _ _ | .slti _ _ _ | .sltiu _ _ _ => false
  | .slli _ _ _ | .srli _ _ _ | .srai _ _ _ => false
  | .lb _ _ _ | .lh _ _ _ | .lw _ _ _ | .lbu _ _ _ | .lhu _ _ _ => false
  | .sb _ _ _ | .sh _ _ _ | .sw _ _ _ | .ecall | .ebreak => false

/-- The faults an instruction's own execution can raise (60_exceptions.md R228). -/
def Instr.mayRaise : Instr → List (Machine.FaultKind × Machine.AccessClass)
  | .lb _ _ _ | .lbu _ _ _ => [(.outOfBoundsAccess, .load)]
  | .lh _ _ _ | .lhu _ _ _ | .lw _ _ _ => [(.misalignedAccess, .load), (.outOfBoundsAccess, .load)]
  | .sb _ _ _ => [(.outOfBoundsAccess, .store)]
  | .sh _ _ _ | .sw _ _ _ => [(.misalignedAccess, .store), (.outOfBoundsAccess, .store)]
  | .add _ _ _ | .sub _ _ _ | .and _ _ _ | .or _ _ _ | .xor _ _ _ => []
  | .slt _ _ _ | .sltu _ _ _ | .sll _ _ _ | .srl _ _ _ | .sra _ _ _ => []
  | .addi _ _ _ | .andi _ _ _ | .ori _ _ _ | .xori _ _ _ | .slti _ _ _ | .sltiu _ _ _ => []
  | .slli _ _ _ | .srli _ _ _ | .srai _ _ _ => []
  | .jal _ _ | .jalr _ _ _ => []
  | .beq _ _ _ | .bne _ _ _ | .blt _ _ _ | .bge _ _ _ | .bltu _ _ _ | .bgeu _ _ _ => []
  | .ecall | .ebreak => []

/-- The halt an instruction requests (R228, 44_system.md R200). -/
def Instr.haltCause : Instr → Option Machine.HaltCause
  | .ecall => some .ecall
  | .ebreak => some .ebreak
  | .add _ _ _ | .sub _ _ _ | .and _ _ _ | .or _ _ _ | .xor _ _ _ => none
  | .slt _ _ _ | .sltu _ _ _ | .sll _ _ _ | .srl _ _ _ | .sra _ _ _ => none
  | .addi _ _ _ | .andi _ _ _ | .ori _ _ _ | .xori _ _ _ | .slti _ _ _ | .sltiu _ _ _ => none
  | .slli _ _ _ | .srli _ _ _ | .srai _ _ _ => none
  | .lb _ _ _ | .lh _ _ _ | .lw _ _ _ | .lbu _ _ _ | .lhu _ _ _ => none
  | .sb _ _ _ | .sh _ _ _ | .sw _ _ _ => none
  | .jal _ _ | .jalr _ _ _ => none
  | .beq _ _ _ | .bne _ _ _ | .blt _ _ _ | .bge _ _ _ | .bltu _ _ _ | .bgeu _ _ _ => none

namespace Machine

/-! ## What changed and what did not -/

/-- Every register, x0 included, reads as before. -/
def SameRegs (s t : State) : Prop := ∀ r : RegIdx, t.x r = s.x r

/-- Register `rd` holds `v` (x0 still reads 0), every other register reads as before (10_state.md R21, R22). -/
def OnlyReg (s t : State) (rd : RegIdx) (v : Word) : Prop :=
  t.x rd = (if rd = 0#5 then 0#32 else v) ∧ ∀ r : RegIdx, r ≠ rd → t.x r = s.x r

/-- MEM_ADMIT and every byte of memory are as before. -/
def SameMem (s t : State) : Prop :=
  t.mem.windows = s.mem.windows ∧ ∀ a : Nat, t.mem.byteAt a = s.mem.byteAt a

/-- The `n` bytes from address `a` on hold the low `8n` bits of `v`, little-endian; every other byte and MEM_ADMIT are as
before (20_memory.md R46). -/
def StoredBytes (s t : State) (a n : Nat) (v : Word) : Prop :=
  t.mem.windows = s.mem.windows ∧
    (∀ k : Nat, k < n → (t.mem.byteAt (a + k)).toNat = v.toNat / 2 ^ (8 * k) % 256) ∧
    ∀ b : Nat, b < a ∨ a + n ≤ b → t.mem.byteAt b = s.mem.byteAt b

/-- The core can step: Running, with the default configuration (10_state.md R28, R30). -/
def CanStep (s : State) : Prop := s.status = .running ∧ s.config = .rv32iOnly

/-- Every byte of an access of `n` bytes at `addr` is in MEM_ADMIT (R41). -/
def Admitted (m : Memory) (addr : Word) (n : Nat) : Prop := ∀ k : Nat, k < n → m.admitsByte (addr.toNat + k) = true

/-- The pc a stop may leave, as an OPEN parameter says (40_execution_engine.md R103). -/
def PcLeft (p : PcAfter) (s t : State) : Prop := (p = .instr → t.pc = s.pc) ∧ (p = .next → t.pc = s.pc + 4)

/-! ## How an instruction ends -/

/-- It answers a next state: rd written, pc at ipc + 4, and nothing else changed. -/
def WritesResult (i : Instr) (s : State) (rd : RegIdx) (v : Word) : Prop :=
  ∃ t, exec i s = .next t ∧ OnlyReg s t rd v ∧ t.pc = s.pc + 4 ∧ SameMem s t ∧ t.status = s.status ∧ t.config = s.config

/-- It answers a next state: `n` bytes stored at `a`, pc at ipc + 4, and nothing else changed. -/
def StoresBytes (i : Instr) (s : State) (a n : Nat) (v : Word) : Prop :=
  ∃ t, exec i s = .next t ∧ StoredBytes s t a n v ∧ SameRegs s t ∧ t.pc = s.pc + 4 ∧ t.status = s.status ∧
    t.config = s.config

/-- It answers a next state: the link ipc + 4 in rd, pc at the target, and nothing else changed. -/
def JumpsTo (i : Instr) (s : State) (rd : RegIdx) (target : Word) : Prop :=
  ∃ t, exec i s = .next t ∧ OnlyReg s t rd (s.pc + 4) ∧ t.pc = target ∧ SameMem s t ∧ t.status = s.status ∧
    t.config = s.config

/-- It answers a next state: pc at the target, and nothing else changed. -/
def GoesTo (i : Instr) (s : State) (target : Word) : Prop :=
  ∃ t, exec i s = .next t ∧ t.pc = target ∧ SameRegs s t ∧ SameMem s t ∧ t.status = s.status ∧ t.config = s.config

/-- It raises a data fault: status holds the record, the pc is as PC_AFTER_DATA_FAULT says, and nothing else changed (R103). -/
def RaisesDataFault (i : Instr) (s : State) (r : FaultRecord) : Prop :=
  ∃ t, exec i s = .next t ∧ t.status = .faulted r ∧ PcLeft Config.pcAfterDataFault s t ∧ SameRegs s t ∧ SameMem s t ∧
    t.config = s.config

/-- It halts: status holds the cause and ipc, the pc is as PC_AFTER_HALT says, and nothing else changed (R103, R200). -/
def Halts (i : Instr) (s : State) (cause : HaltCause) : Prop :=
  ∃ t, exec i s = .next t ∧ t.status = .halted cause s.pc ∧ PcLeft Config.pcAfterHalt s t ∧ SameRegs s t ∧ SameMem s t ∧
    t.config = s.config

/-- The step raises a fetch or decode fault: status holds the record, the pc is left at ipc, and nothing else changed (R103). -/
def RaisesFetchFault (s : State) (r : FaultRecord) : Prop :=
  ∃ t, step s = .next t ∧ t.status = .faulted r ∧ t.pc = s.pc ∧ SameRegs s t ∧ SameMem s t ∧ t.config = s.config

/-! ## The shape of an instruction's rule: its encoding and its effect -/

/-- A word has this mask and pattern exactly when it decodes to this instruction with the word's own fields. -/
def RowDecodes (mask pattern : Word) (mk : Word → Instr) : Prop :=
  ∀ raw : Word, raw &&& mask = pattern ↔ decode raw = .instr (mk raw)

/-- A rule of an R-type instruction (41_integer_computational.md R120 to R130). -/
def RTypeRule (pattern : Word) (mk : RegIdx → RegIdx → RegIdx → Instr) (f : Word → Word → Word) : Prop :=
  RowDecodes 0xFE00707F pattern
    (fun raw => mk (raw.extractLsb' 7 5) (raw.extractLsb' 15 5) (raw.extractLsb' 20 5)) ∧
  ∀ (rd rs1 rs2 : RegIdx) (s : State), WritesResult (mk rd rs1 rs2) s rd (f (s.x rs1) (s.x rs2))

/-- A rule of an I-type ALU instruction (R131 to R136). -/
def ITypeRule (pattern : Word) (mk : RegIdx → RegIdx → Word → Instr) (f : Word → Word → Word) : Prop :=
  RowDecodes 0x0000707F pattern (fun raw => mk (raw.extractLsb' 7 5) (raw.extractLsb' 15 5) (immI raw)) ∧
  ∀ (rd rs1 : RegIdx) (imm : Word) (s : State), WritesResult (mk rd rs1 imm) s rd (f (s.x rs1) imm)

/-- A rule of a shift-immediate instruction (R137 to R139). -/
def ShiftImmRule (pattern : Word) (mk : RegIdx → RegIdx → Shamt → Instr) (f : Word → Nat → Word) : Prop :=
  RowDecodes 0xFE00707F pattern
    (fun raw => mk (raw.extractLsb' 7 5) (raw.extractLsb' 15 5) (raw.extractLsb' 20 5)) ∧
  ∀ (rd rs1 : RegIdx) (shamt : Shamt) (s : State),
    WritesResult (mk rd rs1 shamt) s rd (f (s.x rs1) shamt.toNat)

/-- A rule of a load of `n` bytes whose value is `value M a` (42_load_store.md R160 to R165): its encoding, the bounds fault, and
the result. -/
def LoadRule (pattern : Word) (mk : RegIdx → RegIdx → Word → Instr) (n : Nat) (value : Memory → Nat → Word) : Prop :=
  RowDecodes 0x0000707F pattern (fun raw => mk (raw.extractLsb' 7 5) (raw.extractLsb' 15 5) (immI raw)) ∧
  ∀ (rd rs1 : RegIdx) (imm : Word) (s : State), (s.x rs1 + imm).toNat % n = 0 →
    (Admitted s.mem (s.x rs1 + imm) n → WritesResult (mk rd rs1 imm) s rd (value s.mem (s.x rs1 + imm).toNat)) ∧
    (¬ Admitted s.mem (s.x rs1 + imm) n →
      RaisesDataFault (mk rd rs1 imm) s (.outOfBoundsAccess .load s.pc (s.x rs1 + imm)))

/-- The alignment fault of a load of `n` bytes, n = 2 or 4, raised before admission is asked (R48, R160). -/
def LoadAlignRule (mk : RegIdx → RegIdx → Word → Instr) (n : Nat) : Prop :=
  ∀ (rd rs1 : RegIdx) (imm : Word) (s : State), (s.x rs1 + imm).toNat % n ≠ 0 →
    RaisesDataFault (mk rd rs1 imm) s (.misalignedAccess .load s.pc (s.x rs1 + imm))

/-- A rule of a store of `n` bytes (R166 to R169): its encoding, the bytes stored, and the bounds fault, which stores none. -/
def StoreRule (pattern : Word) (mk : RegIdx → RegIdx → Word → Instr) (n : Nat) : Prop :=
  RowDecodes 0x0000707F pattern (fun raw => mk (raw.extractLsb' 15 5) (raw.extractLsb' 20 5) (immS raw)) ∧
  ∀ (rs1 rs2 : RegIdx) (imm : Word) (s : State), (s.x rs1 + imm).toNat % n = 0 →
    (Admitted s.mem (s.x rs1 + imm) n → StoresBytes (mk rs1 rs2 imm) s (s.x rs1 + imm).toNat n (s.x rs2)) ∧
    (¬ Admitted s.mem (s.x rs1 + imm) n →
      RaisesDataFault (mk rs1 rs2 imm) s (.outOfBoundsAccess .store s.pc (s.x rs1 + imm)))

/-- The alignment fault of a store of `n` bytes, n = 2 or 4, raised before admission is asked (R48, R166). -/
def StoreAlignRule (mk : RegIdx → RegIdx → Word → Instr) (n : Nat) : Prop :=
  ∀ (rs1 rs2 : RegIdx) (imm : Word) (s : State), (s.x rs1 + imm).toNat % n ≠ 0 →
    RaisesDataFault (mk rs1 rs2 imm) s (.misalignedAccess .store s.pc (s.x rs1 + imm))

/-- A rule of a branch taken under `taken` (43_control_transfer.md R180, R184 to R189). -/
def BranchRule (pattern : Word) (mk : RegIdx → RegIdx → Word → Instr) (taken : Word → Word → Prop) : Prop :=
  RowDecodes 0x0000707F pattern (fun raw => mk (raw.extractLsb' 15 5) (raw.extractLsb' 20 5) (immB raw)) ∧
  ∀ (rs1 rs2 : RegIdx) (imm : Word) (s : State),
    (taken (s.x rs1) (s.x rs2) → GoesTo (mk rs1 rs2 imm) s (s.pc + imm)) ∧
    (¬ taken (s.x rs1) (s.x rs2) → GoesTo (mk rs1 rs2 imm) s (s.pc + 4))

/-! ## Values of loads, as the spec's u and sext read them (00_scope.md R12; 20_memory.md R45) -/

/-- The two bytes at `a` as an unsigned little-endian number. -/
def halfAt (m : Memory) (a : Nat) : Nat := (m.byteAt a).toNat + 256 * (m.byteAt (a + 1)).toNat

/-- The four bytes at `a` as an unsigned little-endian number. -/
def wordAt (m : Memory) (a : Nat) : Nat := halfAt m a + 65536 * halfAt m (a + 2)

/-- A number of `w` bits read as two's-complement and widened to 32 bits. -/
def widenSigned (w u : Nat) : Word := BitVec.ofInt 32 (if u < 2 ^ (w - 1) then (u : Int) else (u : Int) - 2 ^ w)

/-! ## The invariant of a run -/

/-- What a stop leaves behind: the pc and the record agree as R103 and R223 say, and the recorded cause did hold. -/
def StopRecorded (s : State) : Prop :=
  match s.status with
  | .running => True
  | .halted _ ipc => s.pc = PcAfter.resolve Config.pcAfterHalt ipc ∧ ipc.toNat % 4 = 0
  | .faulted (.illegalEncoding ipc raw) => s.pc = ipc ∧ ipc.toNat % 4 = 0 ∧ decode raw = .illegalEncoding raw
  | .faulted (.misalignedAccess .fetch ipc addr) => s.pc = ipc ∧ addr = ipc ∧ ipc.toNat % 4 ≠ 0
  | .faulted (.misalignedAccess _ ipc addr) =>
    s.pc = PcAfter.resolve Config.pcAfterDataFault ipc ∧ ipc.toNat % 4 = 0 ∧ addr.toNat % 4 ≠ 0
  | .faulted (.outOfBoundsAccess .fetch ipc addr) =>
    s.pc = ipc ∧ addr = ipc ∧ ipc.toNat % 4 = 0 ∧ ¬ Admitted s.mem addr 4
  | .faulted (.outOfBoundsAccess _ ipc addr) =>
    s.pc = PcAfter.resolve Config.pcAfterDataFault ipc ∧ ipc.toNat % 4 = 0 ∧ ¬ Admitted s.mem addr 4

/-- The invariant: memory in canonical form inside its windows, an even pc (43_control_transfer.md R181), the default
configuration (10_state.md R30), and a stop recorded as R103 and R223 say. -/
def State.Inv (s : State) : Prop :=
  s.mem.wf ∧ s.pc.toNat % 2 = 0 ∧ s.config = .rv32iOnly ∧ StopRecorded s

end Machine

end Sys2Proof
end

