-- ==== Sys2Proof/Certificates/Slice0/Obligations.lean ====
section
/-! DEFINITION. The statements for the provers. Each docstring names the rules of spec/ it formalises; OBLIGATIONS.json lists
them. Where a statement rests on the model's own choice, its docstring names the log entry. -/

open Sys2Proof Sys2Proof.Machine

/-! ## Encoding (30_encoding.md) -/

/-- R85: a well-formed instruction's word decodes to it, every operand kept; and the U format, which no instruction uses,
gives its fields back. -/
def Obligations.DecodeOfEncode : Prop :=
  (∀ i : Instr, i.wellFormed = true → decode (encode i) = .instr i) ∧
  ∀ (v : BitVec 20) (rd : RegIdx) (op : BitVec 7),
    immU (v ++ rd ++ op) = v ++ 0#12 ∧ rdField (v ++ rd ++ op) = rd ∧ opcode (v ++ rd ++ op) = op

/-- R71, R84: the decoder drops no bit and gives only well-formed instructions, so each legal word has one meaning and each
instruction one word. Which fields are compared is the spec's D2 to D4. -/
def Obligations.EncodeOfDecode : Prop :=
  ∀ (raw : Word) (i : Instr), decode raw = .instr i → i.wellFormed = true ∧ encode i = raw

/-- R73: 37 rows; a word decodes to an instruction exactly when a row matches it; the row has the instruction's mnemonic; no
word matches two rows. The rows' values are general knowledge (93_implementation_defined.md G1; log 11). -/
def Obligations.DecodeTableRowsAgree : Prop :=
  decodeTable.length = 37 ∧
  (∀ raw : Word, (∃ i, decode raw = .instr i) ↔ ∃ row ∈ decodeTable, raw &&& row.mask = row.pattern) ∧
  (∀ (raw : Word) (i : Instr), decode raw = .instr i →
    ∀ row ∈ decodeTable, raw &&& row.mask = row.pattern → row.mnemonic = i.mnemonic) ∧
  ∀ raw : Word, ∀ row ∈ decodeTable, ∀ row' ∈ decodeTable,
    raw &&& row.mask = row.pattern → raw &&& row'.mask = row'.pattern → row = row'

/-- R80, R61, R72: the two SYSTEM words (D3); every other SYSTEM word, every word no row matches, every word with one of the
listed opcodes, and every word with bits[1:0] not 11 is IllegalEncoding, carrying the word. The opcode values are general
knowledge (G1; log 11). -/
def Obligations.IllegalWordsAreRejected : Prop :=
  decode 0x00000073 = .instr .ecall ∧ decode 0x00100073 = .instr .ebreak ∧
  (∀ raw : Word, raw.extractLsb' 0 7 = 0b1110011#7 → raw ≠ 0x00000073 → raw ≠ 0x00100073 →
    decode raw = .illegalEncoding raw) ∧
  (∀ raw : Word, (∀ row ∈ decodeTable, raw &&& row.mask ≠ row.pattern) → decode raw = .illegalEncoding raw) ∧
  (∀ raw : Word, raw.extractLsb' 0 7 ∈
      [0b0110111#7, 0b0010111#7, 0b0001111#7, 0b0101111#7, 0b0000111#7, 0b0100111#7, 0b1000011#7, 0b1000111#7,
       0b1001011#7, 0b1001111#7, 0b1010011#7, 0b1010111#7, 0b0001011#7, 0b0101011#7, 0b1011011#7, 0b1111011#7,
       0b0011011#7, 0b0111011#7] → decode raw = .illegalEncoding raw) ∧
  (∀ raw : Word, raw.extractLsb' 0 2 ≠ 0b11#2 → decode raw = .illegalEncoding raw) ∧
  decode 0x00000000 = .illegalEncoding 0x00000000 ∧ decode 0xFFFFFFFF = .illegalEncoding 0xFFFFFFFF ∧
  ∀ raw w : Word, decode raw = .illegalEncoding w → w = raw

/-- 95_test_vectors.md sections 2 to 6: words of the spec, one or more a family, decode to the instruction they stand for. -/
def Obligations.SpecWordsDecode : Prop :=
  decode 0x402081B3 = .instr (.sub 3 1 2) ∧ decode 0x8000F193 = .instr (.andi 3 1 0xFFFFF800) ∧
  decode 0x4040D193 = .instr (.srai 3 1 4) ∧ decode 0xFFC0A183 = .instr (.lw 3 1 0xFFFFFFFC) ∧
  decode 0xFE20AE23 = .instr (.sw 1 2 0xFFFFFFFC) ∧ decode 0xFFDFF06F = .instr (.jal 0 0xFFFFFFFC) ∧
  decode 0x004100E7 = .instr (.jalr 1 2 4) ∧ decode 0xFE316CE3 = .instr (.bltu 2 3 0xFFFFFFF8) ∧
  decode 0x00100073 = .instr .ebreak ∧ decode 0x12345037 = .illegalEncoding 0x12345037

/-- R63 to R67: the five immediates as numbers read from the word's bits, with the ranges the rules give. Bit k of the word
is `raw / 2 ^ k % 2`, and the sign is bit 31. -/
def Obligations.ImmediatesAreTheFieldsTheWordHolds : Prop :=
  ∀ raw : Word,
    (immI raw).toInt = (raw.toNat / 2 ^ 20 : Nat) - 4096 * (raw.toNat / 2 ^ 31 : Nat) ∧
    (immS raw).toInt =
      (32 * (raw.toNat / 2 ^ 25) + raw.toNat / 2 ^ 7 % 32 : Nat) - 4096 * (raw.toNat / 2 ^ 31 : Nat) ∧
    (immB raw).toInt =
      (2048 * (raw.toNat / 2 ^ 7 % 2) + 32 * (raw.toNat / 2 ^ 25 % 64) + 2 * (raw.toNat / 2 ^ 8 % 16) : Nat) -
        4096 * (raw.toNat / 2 ^ 31 : Nat) ∧
    (immJ raw).toInt =
      (4096 * (raw.toNat / 2 ^ 12 % 256) + 2048 * (raw.toNat / 2 ^ 20 % 2) + 2 * (raw.toNat / 2 ^ 21 % 1024) : Nat) -
        1048576 * (raw.toNat / 2 ^ 31 : Nat) ∧
    (immU raw).toNat = raw.toNat / 2 ^ 12 * 2 ^ 12 ∧
    (-2048 ≤ (immI raw).toInt ∧ (immI raw).toInt ≤ 2047) ∧ (-2048 ≤ (immS raw).toInt ∧ (immS raw).toInt ≤ 2047) ∧
    (-4096 ≤ (immB raw).toInt ∧ (immB raw).toInt ≤ 4094 ∧ (immB raw).toInt % 2 = 0) ∧
    (-1048576 ≤ (immJ raw).toInt ∧ (immJ raw).toInt ≤ 1048574 ∧ (immJ raw).toInt % 2 = 0)

/-! ## The step (40_execution_engine.md, 60_exceptions.md) -/

/-- R100, R101: when the four bytes at an admitted, aligned pc decode to `i`, the step is `exec i` at that state. The step adds
nothing around it: the default pc + 4 is written by the meaning, from the ipc that the state's pc holds (log 10). -/
def Obligations.StepRunsTheDecodedInstruction : Prop :=
  ∀ (s : State) (i : Instr), CanStep s → s.pc.toNat % 4 = 0 → Admitted s.mem s.pc 4 →
    decodeBytes (s.mem.byteAt s.pc.toNat) (s.mem.byteAt (s.pc.toNat + 1)) (s.mem.byteAt (s.pc.toNat + 2))
      (s.mem.byteAt (s.pc.toNat + 3)) = .instr i →
    step s = exec i s

/-- R100, R103, R224 to R226, R229: the fetch and decode faults, in their order, each with its record, pc left at ipc, registers
and memory unchanged. The order is the spec's D13, the fetch through the interface its D19. -/
def Obligations.FetchAndDecodeFaultsInOrder : Prop :=
  ∀ s : State, CanStep s →
    (s.pc.toNat % 4 ≠ 0 → RaisesFetchFault s (.misalignedAccess .fetch s.pc s.pc)) ∧
    (s.pc.toNat % 4 = 0 → ¬ Admitted s.mem s.pc 4 → RaisesFetchFault s (.outOfBoundsAccess .fetch s.pc s.pc)) ∧
    (s.pc.toNat % 4 = 0 → Admitted s.mem s.pc 4 → ∀ raw : Word, raw.toNat = wordAt s.mem s.pc.toNat →
      decode raw = .illegalEncoding raw → RaisesFetchFault s (.illegalEncoding s.pc raw))

/-- R104, R29: a step on a stopped core returns the stored outcome, changes nothing, and has no successor (the spec's D15;
log 1). -/
def Obligations.StoppedCoreIsInert : Prop :=
  ∀ s : State, s.config = .rv32iOnly →
    (∀ cause ipc, s.status = .halted cause ipc →
      stepCall s = .ok (.halted cause ipc, s) ∧ ∀ t, step s ≠ .next t) ∧
    (∀ record, s.status = .faulted record → stepCall s = .ok (.faulted record, s) ∧ ∀ t, step s ≠ .next t)

/-- R30: a configuration that is not the default is refused, whatever the rest of the state (the spec's D23; log 7). -/
def Obligations.NonDefaultConfigurationIsRefused : Prop :=
  ∀ s : State, s.config = .nonDefault → step s = .refused .nonDefaultConfiguration

/-- R102: a step of a core with the default configuration returns one outcome; it is what the status register then holds, and
it is Continued exactly when the status is still Running. -/
def Obligations.StepOutcomeIsTheStatus : Prop :=
  (∀ s : State, s.config = .rv32iOnly → ∃ o t, stepCall s = .ok (o, t)) ∧
  ∀ (s t : State) (o : StepOutcome), stepCall s = .ok (o, t) →
    o = statusOutcome t.status ∧ (o = .continued ↔ t.status = .running)

/-- R233: a step that stops leaves every register and byte as before; the record names the instruction's address; the pc is ipc
for a fetch or decode fault and is left as the OPEN parameters say for a data fault or a halt (R103; the spec's D8 to D10;
log 5). -/
def Obligations.StopsArePrecise : Prop :=
  ∀ s t : State, step s = .next t → t.status ≠ .running →
    SameRegs s t ∧ SameMem s t ∧ t.config = s.config ∧
    (∀ r, t.status = .faulted r →
      r.ipc = s.pc ∧ (r.cls = .fetch → t.pc = s.pc) ∧ (r.cls ≠ .fetch → PcLeft Config.pcAfterDataFault s t)) ∧
    (∀ cause ipc, t.status = .halted cause ipc → ipc = s.pc ∧ PcLeft Config.pcAfterHalt s t)

/-- R228, R221: which instruction's execution can raise which stop; an instruction the table gives none completes. The table is
derived in the spec, from R100 and the instructions' rules. -/
def Obligations.InstructionsRaiseOnlyTheirStops : Prop :=
  ∀ (i : Instr) (s t : State), s.status = .running → exec i s = .next t →
    (∀ r, t.status = .faulted r → (r.kind, r.cls) ∈ i.mayRaise) ∧
    (∀ cause ipc, t.status = .halted cause ipc → i.haltCause = some cause) ∧
    (i.mayRaise = [] → i.haltCause = none → t.status = .running)

/-! ## Integer computational instructions (41_integer_computational.md) -/

/-- R121, R122, R131: encoding, result modulo 2^32, and frame of ADD, SUB, ADDI. -/
def Obligations.AddSubRules : Prop :=
  RTypeRule 0x00000033 .add (fun a b => BitVec.ofNat 32 (a.toNat + b.toNat)) ∧
  RTypeRule 0x40000033 .sub (fun a b => BitVec.ofInt 32 ((a.toNat : Int) - b.toNat)) ∧
  ITypeRule 0x00000013 .addi (fun a imm => BitVec.ofInt 32 (a.toInt + imm.toInt))

/-- R123 to R125, R132 to R134: encoding, bitwise result, and frame of AND, OR, XOR and their immediate forms. -/
def Obligations.BitwiseRules : Prop :=
  RTypeRule 0x00007033 .and (fun a b => a &&& b) ∧ RTypeRule 0x00006033 .or (fun a b => a ||| b) ∧
  RTypeRule 0x00004033 .xor (fun a b => a ^^^ b) ∧ ITypeRule 0x00007013 .andi (fun a imm => a &&& imm) ∧
  ITypeRule 0x00006013 .ori (fun a imm => a ||| imm) ∧ ITypeRule 0x00004013 .xori (fun a imm => a ^^^ imm)

/-- R126, R127, R135, R136: encoding, result 0 or 1, and frame of SLT, SLTU, SLTI, SLTIU. -/
def Obligations.CompareRules : Prop :=
  RTypeRule 0x00002033 .slt (fun a b => if a.toInt < b.toInt then 1 else 0) ∧
  RTypeRule 0x00003033 .sltu (fun a b => if a.toNat < b.toNat then 1 else 0) ∧
  ITypeRule 0x00002013 .slti (fun a imm => if a.toInt < imm.toInt then 1 else 0) ∧
  ITypeRule 0x00003013 .sltiu (fun a imm => if a.toNat < imm.toNat then 1 else 0)

/-- R128 to R130, R137 to R139: encoding, result as a product or a quotient by a power of two, and frame of the shifts. A right
arithmetic shift is the quotient of the signed value rounded down. -/
def Obligations.ShiftRules : Prop :=
  RTypeRule 0x00001033 .sll (fun a b => BitVec.ofNat 32 (a.toNat * 2 ^ (b.toNat % 32))) ∧
  RTypeRule 0x00005033 .srl (fun a b => BitVec.ofNat 32 (a.toNat / 2 ^ (b.toNat % 32))) ∧
  RTypeRule 0x40005033 .sra (fun a b => BitVec.ofInt 32 (a.toInt / 2 ^ (b.toNat % 32))) ∧
  ShiftImmRule 0x00001013 .slli (fun a k => BitVec.ofNat 32 (a.toNat * 2 ^ k)) ∧
  ShiftImmRule 0x00005013 .srli (fun a k => BitVec.ofNat 32 (a.toNat / 2 ^ k)) ∧
  ShiftImmRule 0x40005013 .srai (fun a k => BitVec.ofInt 32 (a.toInt / 2 ^ k))

/-! ## Loads and stores (42_load_store.md, 20_memory.md) -/

/-- R161, R164: encoding, value, bounds fault and frame of LB and LBU; no alignment fault is possible. What a fault leaves
unchanged is the spec's D8, D9. -/
def Obligations.ByteLoadRules : Prop :=
  LoadRule 0x00000003 .lb 1 (fun m a => widenSigned 8 (m.byteAt a).toNat) ∧
  LoadRule 0x00004003 .lbu 1 (fun m a => BitVec.ofNat 32 (m.byteAt a).toNat)

/-- R162, R165: encoding, value, alignment and bounds faults and frame of LH and LHU. Alignment before bounds is the spec's
D13, what a fault leaves unchanged its D8, D9. -/
def Obligations.HalfLoadRules : Prop :=
  LoadRule 0x00001003 .lh 2 (fun m a => widenSigned 16 (halfAt m a)) ∧ LoadAlignRule .lh 2 ∧
  LoadRule 0x00005003 .lhu 2 (fun m a => BitVec.ofNat 32 (halfAt m a)) ∧ LoadAlignRule .lhu 2

/-- R163: encoding, value, alignment and bounds faults and frame of LW (D8, D9, D13 as above). -/
def Obligations.WordLoadRule : Prop :=
  LoadRule 0x00002003 .lw 4 (fun m a => BitVec.ofNat 32 (wordAt m a)) ∧ LoadAlignRule .lw 4

/-- R167 to R169: encoding, bytes stored, alignment and bounds faults and frame of SB, SH and SW. That a faulting store writes
no byte is the spec's D14; D8, D9, D13 as above. -/
def Obligations.StoreRules : Prop :=
  StoreRule 0x00000023 .sb 1 ∧ StoreRule 0x00001023 .sh 2 ∧ StoreAlignRule .sh 2 ∧
  StoreRule 0x00002023 .sw 4 ∧ StoreAlignRule .sw 4

/-- R45: a load of the interface answers the little-endian composition of its bytes when all are admitted, else its fault. -/
def Obligations.InterfaceReadsLittleEndian : Prop :=
  ∀ (m : Memory) (addr : Word),
    (Admitted m addr 1 → ∃ v, m.load8 addr = some v ∧ v.toNat = (m.byteAt addr.toNat).toNat) ∧
    (¬ Admitted m addr 1 → m.load8 addr = none) ∧
    (Admitted m addr 2 → ∃ v, m.load16 addr = some v ∧ v.toNat = halfAt m addr.toNat) ∧
    (¬ Admitted m addr 2 → m.load16 addr = none) ∧
    (Admitted m addr 4 → ∃ v, m.load32 addr = some v ∧ v.toNat = wordAt m addr.toNat) ∧
    (¬ Admitted m addr 4 → m.load32 addr = none)

/-- R46: a store of the interface writes byte k of the value at addr + k and no other byte, or, when a byte is not admitted,
answers its fault (and gives no memory). -/
def Obligations.InterfaceWritesLittleEndian : Prop :=
  ∀ (m : Memory) (addr v : Word) (n : Nat) (store : Memory → Word → Word → Option Memory),
    (n, store) ∈ [(1, Memory.store8), (2, Memory.store16), (4, Memory.store32)] →
    (¬ Admitted m addr n → store m addr v = none) ∧
    (Admitted m addr n → ∃ m', store m addr v = some m' ∧ m'.windows = m.windows ∧
      (∀ k, k < n → (m'.byteAt (addr.toNat + k)).toNat = v.toNat / 2 ^ (8 * k) % 256) ∧
      ∀ b, b < addr.toNat ∨ addr.toNat + n ≤ b → m'.byteAt b = m.byteAt b)

/-- R42, R49: the reference memory admits exactly the bytes of its window, and an aligned access of 1, 2 or 4 bytes never passes
the top of the address space. The bound on the window is the spec's D18. -/
def Obligations.ReferenceWindowIsAdmitted : Prop :=
  (∀ base size a : Nat, base + size ≤ 2 ^ 32 →
    ((Memory.reference base size).admitsByte a = true ↔ base ≤ a ∧ a < base + size)) ∧
  ∀ (addr : Word) (n : Nat), n ∈ [1, 2, 4] → addr.toNat % n = 0 → addr.toNat + n ≤ 2 ^ 32

/-- R170: SW then LW gives the word back; SB then LBU the low byte, SH then LHU the low half-word, zero-extended; SH then LH the
low half-word, sign-extended. The half-word clauses are derived in the spec. -/
def Obligations.StoreThenLoadRoundTrips : Prop :=
  ∀ (s : State) (rd rs1 rs2 : RegIdx) (imm : Word), rd ≠ 0 →
    ((s.x rs1 + imm).toNat % 4 = 0 → Admitted s.mem (s.x rs1 + imm) 4 →
      ∃ t u, exec (.sw rs1 rs2 imm) s = .next t ∧ exec (.lw rd rs1 imm) t = .next u ∧ u.x rd = s.x rs2) ∧
    (Admitted s.mem (s.x rs1 + imm) 1 →
      ∃ t u, exec (.sb rs1 rs2 imm) s = .next t ∧ exec (.lbu rd rs1 imm) t = .next u ∧
        (u.x rd).toNat = (s.x rs2).toNat % 256) ∧
    ((s.x rs1 + imm).toNat % 2 = 0 → Admitted s.mem (s.x rs1 + imm) 2 →
      ∃ t u w, exec (.sh rs1 rs2 imm) s = .next t ∧ exec (.lhu rd rs1 imm) t = .next u ∧
        exec (.lh rd rs1 imm) t = .next w ∧ (u.x rd).toNat = (s.x rs2).toNat % 65536 ∧
        w.x rd = widenSigned 16 ((s.x rs2).toNat % 65536))

/-- R171: after SW of v at an aligned A, LBU at A + k gives byte k and LHU at A + 2j gives half-word j; four SB at A .. A + 3
make LW at A give their bytes, the first lowest. Derived in the spec, from R47. -/
def Obligations.MixedWidthsComposeLittleEndian : Prop :=
  ∀ (s : State) (rd rs1 : RegIdx) (imm : Word), rd ≠ 0 → (s.x rs1 + imm).toNat % 4 = 0 →
    Admitted s.mem (s.x rs1 + imm) 4 →
    (∀ rs2 : RegIdx, ∃ t, exec (.sw rs1 rs2 imm) s = .next t ∧
      (∀ k : Nat, k < 4 → ∃ u, exec (.lbu rd rs1 (imm + BitVec.ofNat 32 k)) t = .next u ∧
        (u.x rd).toNat = (s.x rs2).toNat / 2 ^ (8 * k) % 256) ∧
      (∀ j : Nat, j < 2 → ∃ u, exec (.lhu rd rs1 (imm + BitVec.ofNat 32 (2 * j))) t = .next u ∧
        (u.x rd).toNat = (s.x rs2).toNat / 2 ^ (16 * j) % 65536)) ∧
    (∀ r0 r1 r2 r3 : RegIdx, ∃ t0 t1 t2 t3 u, exec (.sb rs1 r0 imm) s = .next t0 ∧
      exec (.sb rs1 r1 (imm + 1)) t0 = .next t1 ∧ exec (.sb rs1 r2 (imm + 2)) t1 = .next t2 ∧
      exec (.sb rs1 r3 (imm + 3)) t2 = .next t3 ∧ exec (.lw rd rs1 imm) t3 = .next u ∧
      (u.x rd).toNat = (s.x r0).toNat % 256 + 256 * ((s.x r1).toNat % 256) + 65536 * ((s.x r2).toNat % 256) +
        16777216 * ((s.x r3).toNat % 256))

/-- R57, R256: a word stored by SW is the instruction that any later step fetching there runs, with nothing between. Derived in the
spec, from R54. -/
def Obligations.FetchSeesTheStore : Prop :=
  ∀ (s : State) (rs1 rs2 : RegIdx) (imm : Word) (i : Instr),
    (s.x rs1 + imm).toNat % 4 = 0 → Admitted s.mem (s.x rs1 + imm) 4 → decode (s.x rs2) = .instr i →
    ∃ t, exec (.sw rs1 rs2 imm) s = .next t ∧
      ∀ u : State, CanStep u → u.mem = t.mem → u.pc = s.x rs1 + imm → step u = exec i u

/-! ## Control transfer (43_control_transfer.md) -/

/-- R182, R183: encoding, link, target and frame of JAL and JALR; the target is taken from the old registers (the spec's D7),
modulo 2^32 (D5). -/
def Obligations.JumpRules : Prop :=
  RowDecodes 0x0000007F 0x0000006F (fun raw => .jal (raw.extractLsb' 7 5) (immJ raw)) ∧
  (∀ (rd : RegIdx) (imm : Word) (s : State), JumpsTo (.jal rd imm) s rd (s.pc + imm)) ∧
  RowDecodes 0x0000707F 0x00000067 (fun raw => .jalr (raw.extractLsb' 7 5) (raw.extractLsb' 15 5) (immI raw)) ∧
  ∀ (rd rs1 : RegIdx) (imm : Word) (s : State),
    JumpsTo (.jalr rd rs1 imm) s rd (BitVec.ofNat 32 ((s.x rs1 + imm).toNat / 2 * 2))

/-- R184, R185: encoding, condition, target and frame of BEQ and BNE. -/
def Obligations.EqualityBranchRules : Prop :=
  BranchRule 0x00000063 .beq (fun a b => a = b) ∧ BranchRule 0x00001063 .bne (fun a b => a ≠ b)

/-- R186 to R189: encoding, condition, target and frame of BLT, BGE, BLTU and BGEU. -/
def Obligations.OrderBranchRules : Prop :=
  BranchRule 0x00004063 .blt (fun a b => a.toInt < b.toInt) ∧ BranchRule 0x00005063 .bge (fun a b => a.toInt ≥ b.toInt) ∧
  BranchRule 0x00006063 .bltu (fun a b => a.toNat < b.toNat) ∧ BranchRule 0x00007063 .bgeu (fun a b => a.toNat ≥ b.toNat)

/-- R181: a control transfer raises nothing; its target is even; rd still gets the link; a target that is 2 mod 4, or outside
the admitted memory, faults at the next fetch, with ipc and addr the target (the spec's D6). -/
def Obligations.TargetsAreCheckedAtTheNextFetch : Prop :=
  ∀ (raw : Word) (i : Instr) (s : State), decode raw = .instr i → i.isControlTransfer = true → s.pc.toNat % 4 = 0 →
    CanStep s →
    ∃ t, exec i s = .next t ∧ CanStep t ∧ t.pc.toNat % 2 = 0 ∧ (∀ rd, i.dest = some rd → OnlyReg s t rd (s.pc + 4)) ∧
      (t.pc.toNat % 4 ≠ 0 → RaisesFetchFault t (.misalignedAccess .fetch t.pc t.pc)) ∧
      (t.pc.toNat % 4 = 0 → ¬ Admitted t.mem t.pc 4 → RaisesFetchFault t (.outOfBoundsAccess .fetch t.pc t.pc))

/-- R191: a decoded branch or JAL reaches only its range from ipc, modulo 2^32; JALR reaches every even address. Derived in the
spec. -/
def Obligations.TransferRanges : Prop :=
  (∀ (raw : Word) (i : Instr) (s t : State), decode raw = .instr i → exec i s = .next t →
    (raw.extractLsb' 0 7 = 0b1100011#7 → t.pc = s.pc + 4 ∨
      ∃ d : Int, -4096 ≤ d ∧ d ≤ 4094 ∧ d % 2 = 0 ∧ t.pc = BitVec.ofInt 32 ((s.pc.toNat : Int) + d)) ∧
    (raw.extractLsb' 0 7 = 0b1101111#7 →
      ∃ d : Int, -1048576 ≤ d ∧ d ≤ 1048574 ∧ d % 2 = 0 ∧ t.pc = BitVec.ofInt 32 ((s.pc.toNat : Int) + d))) ∧
  ∀ (s : State) (rd rs1 : RegIdx), (s.x rs1).toNat % 2 = 0 →
    ∃ t, exec (.jalr rd rs1 0) s = .next t ∧ t.pc = s.x rs1

/-! ## System instructions (44_system.md) -/

/-- R200 to R202: ECALL and EBREAK are exactly their words, and each halts: status holds the cause and ipc, the pc is as
PC_AFTER_HALT says, no register and no byte changes. The causes are the spec's D11, the exact words its D3, the pc its D10. -/
def Obligations.SystemRules : Prop :=
  (∀ raw : Word, raw = 0x00000073 ↔ decode raw = .instr .ecall) ∧
  (∀ raw : Word, raw = 0x00100073 ↔ decode raw = .instr .ebreak) ∧
  ∀ s : State, Halts .ecall s .ecall ∧ Halts .ebreak s .ebreak

/-! ## The whole machine -/

/-- R21: x0 always yields 0, and an instruction with rd = x0 leaves the whole register file bit-identical. -/
def Obligations.ZeroRegisterIsHardwired : Prop :=
  (∀ s : State, s.x 0 = 0) ∧
  ∀ (i : Instr) (s t : State), i.dest = some 0 → exec i s = .next t → t.regs = s.regs

/-- R22, R30, R41, R44: whatever the instruction, only its rd may change among the registers, only SB, SH and SW change memory,
each only the bytes of its width from its effective address on, and neither MEM_ADMIT nor the configuration changes. -/
def Obligations.OnlyDestinationAndStoresChange : Prop :=
  ∀ (i : Instr) (s t : State), exec i s = .next t →
    (∀ r : RegIdx, i.dest ≠ some r → t.x r = s.x r) ∧ (i.storeSize = none → SameMem s t) ∧
    (∀ (rs1 rs2 : RegIdx) (imm : Word) (n : Nat),
      (i, n) ∈ [(.sb rs1 rs2 imm, 1), (.sh rs1 rs2 imm, 2), (.sw rs1 rs2 imm, 4)] →
      ∀ b : Nat, b < (effectiveAddress rs1 imm s).toNat ∨ (effectiveAddress rs1 imm s).toNat + n ≤ b →
        t.mem.byteAt b = s.mem.byteAt b) ∧
    t.mem.windows = s.mem.windows ∧ t.config = s.config

/-- R22, R140, R200: what an instruction does depends on no register but its sources; ECALL and EBREAK read none, a7 included. -/
def Obligations.OnlySourceRegistersAreRead : Prop :=
  ∀ (i : Instr) (s s' : State), s.status = .running → s'.status = .running → s'.pc = s.pc → s'.config = s.config →
    s'.mem = s.mem → (∀ r ∈ i.sources, s'.x r = s.x r) →
    ∃ t t', exec i s = .next t ∧ exec i s' = .next t' ∧ t'.pc = t.pc ∧ t'.status = t.status ∧ t'.mem = t.mem ∧
      (t.status = .running → ∀ rd, i.dest = some rd → t'.x rd = t.x rd)

/-- The invariant of Safety.lean is kept by every step: canonical memory, even pc (R181), default configuration (R30), stops
recorded with the pc R103 leaves. -/
def Obligations.StepKeepsTheInvariant : Prop :=
  ∀ s t : State, s.Inv → step s = .next t → t.Inv

/-- The reset state meets the invariant. The reset memory is the model's choice (log 2, log 3). -/
def Obligations.ResetMeetsTheInvariant : Prop := State.reset.Inv

/-! ## Construction and the host (10_state.md, 70_reset_and_hazards.md, 40_execution_engine.md) -/

/-- R36 to R39, R251: what construction leaves, for every INIT_PC, INIT_REGS and memory; index 0 is discarded (derived in the
spec, from R21); status Running is its D20. -/
def Obligations.ConstructionSetsTheState : Prop :=
  ∀ (initPc : Option Word) (initRegs : List (RegIdx × Word)) (mem : Memory),
    (State.construct initPc initRegs mem).pc = initPc.getD 0 ∧
    (State.construct initPc initRegs mem).status = .running ∧
    (State.construct initPc initRegs mem).config = .rv32iOnly ∧ (State.construct initPc initRegs mem).mem = mem ∧
    (State.construct initPc initRegs mem).x 0 = 0 ∧
    (∀ r : RegIdx, (∀ p ∈ initRegs, p.1 ≠ r) → (State.construct initPc initRegs mem).x r = 0) ∧
    ((initRegs.map Prod.fst).Nodup → ∀ p ∈ initRegs, p.1 ≠ 0 →
      (State.construct initPc initRegs mem).x p.1 = p.2)

/-- R252: a core built with a misaligned INIT_PC, or one outside the admitted memory, faults on its first step and is otherwise
unchanged. Derived in the spec, from R100 and R103. -/
def Obligations.BadInitPcFaultsOnTheFirstStep : Prop :=
  ∀ (pc : Word) (initRegs : List (RegIdx × Word)) (mem : Memory),
    (pc.toNat % 4 ≠ 0 →
      RaisesFetchFault (State.construct (some pc) initRegs mem) (.misalignedAccess .fetch pc pc)) ∧
    (pc.toNat % 4 = 0 → ¬ Admitted mem pc 4 →
      RaisesFetchFault (State.construct (some pc) initRegs mem) (.outOfBoundsAccess .fetch pc pc))

/-- R105: the run loop, one step at a time. Whether the stopping step counts is the OPEN parameter RUN_COUNTS_STOPPING_STEP (the
spec's D16; log 6). That a bound of 0 gives Exhausted on a stopped core too is the model's reading (log 13, DEDUCED). -/
def Obligations.RunIsStepsUntilBoundOrStop : Prop :=
  ∀ (s t : State) (max : Nat),
    run s 0 = .ok (⟨0, .exhausted⟩, s) ∧
    (stepCall s = .ok (.continued, t) → ∀ o u, run t max = .ok (o, u) →
      run s (max + 1) = .ok (⟨o.count + 1, o.condition⟩, u)) ∧
    (∀ cause ipc, stepCall s = .ok (.halted cause ipc, t) →
      run s (max + 1) = .ok (⟨if Config.runCountsStoppingStep then 1 else 0, .halted cause ipc⟩, t)) ∧
    (∀ record, stepCall s = .ok (.faulted record, t) →
      run s (max + 1) = .ok (⟨if Config.runCountsStoppingStep then 1 else 0, .faulted record⟩, t))

/-- R106, R107, R108, R112: a run of a default core always returns; its count is at most the bound, and is the bound when it is
exhausted; its condition is what the final status holds, unless the bound was 0. The corner cases are derived in the spec;
a bound of 0 on a stopped core is log 13. -/
def Obligations.RunReturnsWithinItsBound : Prop :=
  ∀ (s : State) (max : Nat), s.config = .rv32iOnly →
    ∃ o t, run s max = .ok (o, t) ∧ o.count ≤ max ∧ (o.condition = .exhausted → o.count = max) ∧
      (max = 0 → o.condition = .exhausted ∧ t = s) ∧
      (0 < max →
        (o.condition = .exhausted ↔ t.status = .running) ∧
        (∀ cause ipc, o.condition = .halted cause ipc ↔ t.status = .halted cause ipc) ∧
        (∀ record, o.condition = .faulted record ↔ t.status = .faulted record))

/-- R108: `BEQ x0, x0, 0` at the pc makes every run exhaust its bound with the whole state unchanged. -/
def Obligations.SelfLoopExhaustsEveryBound : Prop :=
  ∀ (s : State) (max : Nat), CanStep s → s.pc.toNat % 4 = 0 → Admitted s.mem s.pc 4 →
    wordAt s.mem s.pc.toNat = 0x00000063 → run s max = .ok (⟨max, .exhausted⟩, s)

/-- R59, R111: between calls the host may write any admitted byte; nothing else of the core or memory changes. That an address
with no byte leaves all as it was is the model's choice (log 12); that the host may do no more is the spec's D24. -/
def Obligations.HostWriteChangesOneByte : Prop :=
  ∀ (s : State) (a : Nat) (v : Byte),
    SameRegs s (s.hostWrite a v) ∧ (s.hostWrite a v).pc = s.pc ∧ (s.hostWrite a v).status = s.status ∧
    (s.hostWrite a v).config = s.config ∧ (s.hostWrite a v).mem.windows = s.mem.windows ∧
    (s.mem.admitsByte a = true → (s.hostWrite a v).mem.byteAt a = v) ∧ (s.mem.admitsByte a = false → s.hostWrite a v = s) ∧
    ∀ b, b ≠ a → (s.hostWrite a v).mem.byteAt b = s.mem.byteAt b

/-- About the model's helper `State.withFetchWord` (log 4, DESIGN CHOICE), which does more than the host may (R104, R111, D24): it
aligns the pc, sets the status to Running and the configuration to the default, and admits the word. From every state, the very
next step runs the word it places (R100). -/
def Obligations.PlacedWordIsRunNext : Prop :=
  ∀ (s : State) (raw : Word) (i : Instr), decode raw = .instr i →
    step (s.withFetchWord 32 raw.toNat) = exec i (s.withFetchWord 32 raw.toNat)

/-- R253, R59: the host's load of bytes at admitted addresses places them in order from the first address on, and changes no other
byte and no admission; a byte of a reference memory outside what was loaded is the unknown MEM_INIT there (R54; log 3). -/
def Obligations.HostLoadPlacesItsBytes : Prop :=
  (∀ (m : Memory) (a : Nat) (bs : List Byte), (∀ k, k < bs.length → m.admitsByte (a + k) = true) →
    (m.hostLoad a bs).windows = m.windows ∧ (∀ (k : Nat) (h : k < bs.length), (m.hostLoad a bs).byteAt (a + k) = bs[k]) ∧
    ∀ b : Nat, b < a ∨ a + bs.length ≤ b → (m.hostLoad a bs).byteAt b = m.byteAt b) ∧
  ∀ (base size a b : Nat) (bs : List Byte), b < a ∨ a + bs.length ≤ b →
    ((Memory.reference base size).hostLoad a bs).byteAt b = Config.memInit b

/-- R253, R47, R100: a core that can step, with an aligned and admitted pc, runs in its next step the word whose four bytes the
host loaded at the pc, least-significant first. The host touches memory only (R111). -/
def Obligations.HostLoadedWordIsRunNext : Prop :=
  ∀ (s : State) (raw : Word) (i : Instr), CanStep s → s.pc.toNat % 4 = 0 → Admitted s.mem s.pc 4 → decode raw = .instr i →
    ∀ t : State,
      t = s.setMem (s.mem.hostLoad s.pc.toNat [byteOf raw 0, byteOf raw 1, byteOf raw 2, byteOf raw 3]) →
      step t = exec i t ∧ SameRegs s t ∧ t.pc = s.pc ∧ t.status = s.status
end

