-- ==== Sys2Proof/Laws/Decode.lean ====
section
/-! SUPPORT. The encoder's formats and the decoder's fields undo each other (30_encoding.md R60 to R68, R85), the immediates'
ranges, and the two masks of the decode table as conditions on the fields. -/

namespace Sys2Proof

/-! ## Fields of a format -/

section Formats
variable (f7 : BitVec 7) (rs2 rs1 rd : RegIdx) (f3 : BitVec 3) (op : BitVec 7) (imm : Word)

@[simp] theorem opcode_rType : opcode (rType f7 rs2 rs1 f3 rd op) = op := by
  unfold opcode rType; ext i hi; simp only [BitVec.getElem_extractLsb', BitVec.getLsbD_append]; interval_cases i <;> simp
@[simp] theorem rdField_rType : rdField (rType f7 rs2 rs1 f3 rd op) = rd := by
  unfold rdField rType; ext i hi; simp only [BitVec.getElem_extractLsb', BitVec.getLsbD_append]; interval_cases i <;> simp
@[simp] theorem funct3_rType : funct3 (rType f7 rs2 rs1 f3 rd op) = f3 := by
  unfold funct3 rType; ext i hi; simp only [BitVec.getElem_extractLsb', BitVec.getLsbD_append]; interval_cases i <;> simp
@[simp] theorem rs1Field_rType : rs1Field (rType f7 rs2 rs1 f3 rd op) = rs1 := by
  unfold rs1Field rType; ext i hi; simp only [BitVec.getElem_extractLsb', BitVec.getLsbD_append]; interval_cases i <;> simp
@[simp] theorem rs2Field_rType : rs2Field (rType f7 rs2 rs1 f3 rd op) = rs2 := by
  unfold rs2Field rType; ext i hi; simp only [BitVec.getElem_extractLsb', BitVec.getLsbD_append]; interval_cases i <;> simp
@[simp] theorem shamtField_rType : shamtField (rType f7 rs2 rs1 f3 rd op) = rs2 := rs2Field_rType ..
@[simp] theorem funct7_rType : funct7 (rType f7 rs2 rs1 f3 rd op) = f7 := by
  unfold funct7 rType; ext i hi; simp only [BitVec.getElem_extractLsb', BitVec.getLsbD_append]; interval_cases i <;> simp

@[simp] theorem opcode_iType : opcode (iType imm rs1 f3 rd op) = op := by
  unfold opcode iType; ext i hi; simp only [BitVec.getElem_extractLsb', BitVec.getLsbD_append]; interval_cases i <;> simp
@[simp] theorem rdField_iType : rdField (iType imm rs1 f3 rd op) = rd := by
  unfold rdField iType; ext i hi; simp only [BitVec.getElem_extractLsb', BitVec.getLsbD_append]; interval_cases i <;> simp
@[simp] theorem funct3_iType : funct3 (iType imm rs1 f3 rd op) = f3 := by
  unfold funct3 iType; ext i hi; simp only [BitVec.getElem_extractLsb', BitVec.getLsbD_append]; interval_cases i <;> simp
@[simp] theorem rs1Field_iType : rs1Field (iType imm rs1 f3 rd op) = rs1 := by
  unfold rs1Field iType; ext i hi; simp only [BitVec.getElem_extractLsb', BitVec.getLsbD_append]; interval_cases i <;> simp
theorem immI_iType : immI (iType imm rs1 f3 rd op) = (imm.setWidth 12).signExtend 32 := by
  unfold immI iType; congr 1; ext i hi
  simp only [BitVec.getElem_extractLsb', BitVec.getLsbD_append]; interval_cases i <;> simp

@[simp] theorem opcode_sType : opcode (sType imm rs2 rs1 f3 op) = op := by
  unfold opcode sType; ext i hi; simp only [BitVec.getElem_extractLsb', BitVec.getLsbD_append]; interval_cases i <;> simp
@[simp] theorem funct3_sType : funct3 (sType imm rs2 rs1 f3 op) = f3 := by
  unfold funct3 sType; ext i hi; simp only [BitVec.getElem_extractLsb', BitVec.getLsbD_append]; interval_cases i <;> simp
@[simp] theorem rs1Field_sType : rs1Field (sType imm rs2 rs1 f3 op) = rs1 := by
  unfold rs1Field sType; ext i hi; simp only [BitVec.getElem_extractLsb', BitVec.getLsbD_append]; interval_cases i <;> simp
@[simp] theorem rs2Field_sType : rs2Field (sType imm rs2 rs1 f3 op) = rs2 := by
  unfold rs2Field sType; ext i hi; simp only [BitVec.getElem_extractLsb', BitVec.getLsbD_append]; interval_cases i <;> simp
theorem immS_sType : immS (sType imm rs2 rs1 f3 op) = (imm.setWidth 12).signExtend 32 := by
  unfold immS sType; congr 1; ext i hi
  simp only [BitVec.getElem_append, BitVec.getElem_extractLsb', BitVec.getLsbD_append]; interval_cases i <;> simp

@[simp] theorem opcode_bType : opcode (bType imm rs2 rs1 f3 op) = op := by
  unfold opcode bType; ext i hi; simp only [BitVec.getElem_extractLsb', BitVec.getLsbD_append]; interval_cases i <;> simp
@[simp] theorem funct3_bType : funct3 (bType imm rs2 rs1 f3 op) = f3 := by
  unfold funct3 bType; ext i hi; simp only [BitVec.getElem_extractLsb', BitVec.getLsbD_append]; interval_cases i <;> simp
@[simp] theorem rs1Field_bType : rs1Field (bType imm rs2 rs1 f3 op) = rs1 := by
  unfold rs1Field bType; ext i hi; simp only [BitVec.getElem_extractLsb', BitVec.getLsbD_append]; interval_cases i <;> simp
@[simp] theorem rs2Field_bType : rs2Field (bType imm rs2 rs1 f3 op) = rs2 := by
  unfold rs2Field bType; ext i hi; simp only [BitVec.getElem_extractLsb', BitVec.getLsbD_append]; interval_cases i <;> simp
theorem immB_bType (h0 : imm.getLsbD 0 = false) :
    immB (bType imm rs2 rs1 f3 op) = (imm.setWidth 13).signExtend 32 := by
  unfold immB bType; congr 1; ext i hi
  simp only [BitVec.getElem_append, BitVec.getElem_extractLsb', BitVec.getLsbD_append]
  interval_cases i <;> simp_all

@[simp] theorem opcode_jType : opcode (jType imm rd op) = op := by
  unfold opcode jType; ext i hi; simp only [BitVec.getElem_extractLsb', BitVec.getLsbD_append]; interval_cases i <;> simp
@[simp] theorem rdField_jType : rdField (jType imm rd op) = rd := by
  unfold rdField jType; ext i hi; simp only [BitVec.getElem_extractLsb', BitVec.getLsbD_append]; interval_cases i <;> simp
theorem immJ_jType (h0 : imm.getLsbD 0 = false) : immJ (jType imm rd op) = (imm.setWidth 21).signExtend 32 := by
  unfold immJ jType; congr 1; ext i hi
  simp only [BitVec.getElem_append, BitVec.getElem_extractLsb', BitVec.getLsbD_append]
  interval_cases i <;> simp_all

end Formats

/-! ## A word put together from its own fields -/

theorem rType_fields (raw : Word) :
    rType (funct7 raw) (rs2Field raw) (rs1Field raw) (funct3 raw) (rdField raw) (opcode raw) = raw := by
  unfold rType funct7 rs2Field rs1Field funct3 rdField opcode
  apply BitVec.eq_of_getLsbD_eq
  intro i hi
  simp only [BitVec.getLsbD_append, BitVec.getLsbD_extractLsb']
  interval_cases i <;> simp

theorem iType_fields (raw : Word) :
    iType (immI raw) (rs1Field raw) (funct3 raw) (rdField raw) (opcode raw) = raw := by
  unfold iType immI rs1Field funct3 rdField opcode
  apply BitVec.eq_of_getLsbD_eq
  intro i hi
  simp only [BitVec.getLsbD_append, BitVec.getLsbD_extractLsb', BitVec.getLsbD_signExtend]
  interval_cases i <;> simp

theorem sType_fields (raw : Word) :
    sType (immS raw) (rs2Field raw) (rs1Field raw) (funct3 raw) (opcode raw) = raw := by
  unfold sType immS rs1Field funct3 rs2Field opcode
  apply BitVec.eq_of_getLsbD_eq
  intro i hi
  simp only [BitVec.getLsbD_append, BitVec.getLsbD_extractLsb', BitVec.getLsbD_signExtend]
  interval_cases i <;> simp

theorem bType_fields (raw : Word) :
    bType (immB raw) (rs2Field raw) (rs1Field raw) (funct3 raw) (opcode raw) = raw := by
  unfold bType immB rs1Field funct3 rs2Field opcode
  apply BitVec.eq_of_getLsbD_eq
  intro i hi
  simp only [BitVec.getLsbD_append, BitVec.getLsbD_extractLsb', BitVec.getLsbD_signExtend]
  interval_cases i <;> simp

theorem jType_fields (raw : Word) : jType (immJ raw) (rdField raw) (opcode raw) = raw := by
  unfold jType immJ rdField opcode
  apply BitVec.eq_of_getLsbD_eq
  intro i hi
  simp only [BitVec.getLsbD_append, BitVec.getLsbD_extractLsb', BitVec.getLsbD_signExtend]
  interval_cases i <;> simp

/-! The same, with the fields named: what a proof about a decoded word has in hand. -/

theorem rType_of_fields {raw : Word} {f7 : BitVec 7} {f3 : BitVec 3} {op : BitVec 7} (h7 : funct7 raw = f7)
    (h3 : funct3 raw = f3) (h0 : opcode raw = op) :
    rType f7 (rs2Field raw) (rs1Field raw) f3 (rdField raw) op = raw := by
  subst h7 h3 h0; exact rType_fields raw

theorem iType_of_fields {raw : Word} {f3 : BitVec 3} {op : BitVec 7} (h3 : funct3 raw = f3) (h0 : opcode raw = op) :
    iType (immI raw) (rs1Field raw) f3 (rdField raw) op = raw := by subst h3 h0; exact iType_fields raw

theorem sType_of_fields {raw : Word} {f3 : BitVec 3} {op : BitVec 7} (h3 : funct3 raw = f3) (h0 : opcode raw = op) :
    sType (immS raw) (rs2Field raw) (rs1Field raw) f3 op = raw := by subst h3 h0; exact sType_fields raw

theorem bType_of_fields {raw : Word} {f3 : BitVec 3} {op : BitVec 7} (h3 : funct3 raw = f3) (h0 : opcode raw = op) :
    bType (immB raw) (rs2Field raw) (rs1Field raw) f3 op = raw := by subst h3 h0; exact bType_fields raw

theorem jType_of_fields {raw : Word} {op : BitVec 7} (h0 : opcode raw = op) :
    jType (immJ raw) (rdField raw) op = raw := by subst h0; exact jType_fields raw

/-! ## Ranges of the immediates (R63 to R67) -/

theorem bit0_of_even {n : Nat} {v : BitVec n} (h : v.toInt % 2 = 0) : v.getLsbD 0 = false := by
  have hb : v.getLsbD 0 = decide (v.toNat % 2 = 1) := by simp [BitVec.getLsbD, Nat.testBit_zero]
  rw [hb, decide_eq_false_iff_not]
  rcases n with _ | n
  · simp [BitVec.of_length_zero]
  · rw [BitVec.toInt_eq_toNat_cond] at h
    have : (2 : Int) ^ (n + 1) = 2 * 2 ^ n := by rw [pow_succ]; ring
    split at h <;> push_cast at h <;> omega

theorem even_of_bit0 {n : Nat} {v : BitVec n} (h : v.getLsbD 0 = false) : v.toInt % 2 = 0 := by
  have hb : v.getLsbD 0 = decide (v.toNat % 2 = 1) := by simp [BitVec.getLsbD, Nat.testBit_zero]
  rw [hb, decide_eq_false_iff_not] at h
  rcases n with _ | n
  · simp [BitVec.of_length_zero]
  · rw [BitVec.toInt_eq_toNat_cond]
    have : (2 : Int) ^ (n + 1) = 2 * 2 ^ n := by rw [pow_succ]; ring
    split <;> push_cast <;> omega

/-- An immediate in the 12-bit range is its low 12 bits, sign-extended. -/
theorem signExtend_of_fitsI {imm : Word} (h : fitsI imm = true) : (imm.setWidth 12).signExtend 32 = imm := by
  simp only [fitsI, decide_eq_true_eq] at h
  apply BitVec.eq_of_toInt_eq
  rw [BitVec.toInt_signExtend, BitVec.toInt_setWidth]
  have := BitVec.toInt_eq_toNat_bmod imm
  simp [Int.bmod] at *
  omega

theorem signExtend_of_fitsS {imm : Word} (h : fitsS imm = true) : (imm.setWidth 12).signExtend 32 = imm :=
  signExtend_of_fitsI h

theorem signExtend_of_fitsB {imm : Word} (h : fitsB imm = true) : (imm.setWidth 13).signExtend 32 = imm := by
  simp only [fitsB, decide_eq_true_eq] at h
  apply BitVec.eq_of_toInt_eq
  rw [BitVec.toInt_signExtend, BitVec.toInt_setWidth]
  have := BitVec.toInt_eq_toNat_bmod imm
  simp [Int.bmod] at *
  omega

theorem signExtend_of_fitsJ {imm : Word} (h : fitsJ imm = true) : (imm.setWidth 21).signExtend 32 = imm := by
  simp only [fitsJ, decide_eq_true_eq] at h
  apply BitVec.eq_of_toInt_eq
  rw [BitVec.toInt_signExtend, BitVec.toInt_setWidth]
  have := BitVec.toInt_eq_toNat_bmod imm
  simp [Int.bmod] at *
  omega

theorem bit0_of_fitsB {imm : Word} (h : fitsB imm = true) : imm.getLsbD 0 = false :=
  bit0_of_even (by simp only [fitsB, decide_eq_true_eq] at h; exact h.2.2)

theorem bit0_of_fitsJ {imm : Word} (h : fitsJ imm = true) : imm.getLsbD 0 = false :=
  bit0_of_even (by simp only [fitsJ, decide_eq_true_eq] at h; exact h.2.2)

theorem fitsI_signExtend (v : BitVec 12) : fitsI (v.signExtend 32) = true := by
  have h1 := BitVec.le_toInt v
  have h2 := BitVec.toInt_lt (x := v)
  rw [fitsI, decide_eq_true_eq, BitVec.toInt_signExtend_of_le (by omega)]
  omega

theorem fitsI_immI (raw : Word) : fitsI (immI raw) = true := fitsI_signExtend _

theorem fitsS_immS (raw : Word) : fitsS (immS raw) = true := fitsI_signExtend _

theorem fitsB_immB (raw : Word) : fitsB (immB raw) = true := by
  unfold immB
  generalize hv : (raw.extractLsb' 31 1 ++ raw.extractLsb' 7 1 ++ raw.extractLsb' 25 6 ++ raw.extractLsb' 8 4 ++ 0#1) = v
  have h0 : v.toInt % 2 = 0 := even_of_bit0 (by rw [← hv, BitVec.getLsbD_append]; simp)
  have h1 := BitVec.le_toInt v
  have h2 := BitVec.toInt_lt (x := v)
  rw [fitsB, decide_eq_true_eq, BitVec.toInt_signExtend_of_le (by omega)]
  omega

theorem fitsJ_immJ (raw : Word) : fitsJ (immJ raw) = true := by
  unfold immJ
  generalize hv :
    (raw.extractLsb' 31 1 ++ raw.extractLsb' 12 8 ++ raw.extractLsb' 20 1 ++ raw.extractLsb' 21 10 ++ 0#1) = v
  have h0 : v.toInt % 2 = 0 := even_of_bit0 (by rw [← hv, BitVec.getLsbD_append]; simp)
  have h1 := BitVec.le_toInt v
  have h2 := BitVec.toInt_lt (x := v)
  rw [fitsJ, decide_eq_true_eq, BitVec.toInt_signExtend_of_le (by omega)]
  omega

/-! ## The masks of the decode table (R71, R73) -/

theorem mask7F_iff {raw p : Word} (hp : p &&& 0x7F#32 = p) : raw &&& 0x7F#32 = p ↔ opcode raw = opcode p := by
  constructor
  · intro h; rw [← h]; unfold opcode; ext i hi
    simp only [BitVec.getElem_extractLsb', BitVec.getLsbD_and]; interval_cases i <;> simp
  · intro h
    have hb : ∀ i, i < 7 → raw.getLsbD i = p.getLsbD i := by
      intro i hi
      have := congrArg (fun v => v.getLsbD i) h
      simpa [opcode, hi] using this
    apply BitVec.eq_of_getLsbD_eq
    intro i hi
    have hpi := congrArg (fun v => v.getLsbD i) hp
    simp only [BitVec.getLsbD_and] at hpi ⊢
    have := hb i
    interval_cases i <;> simp_all

theorem mask707F_iff {raw p : Word} (hp : p &&& 0x707F#32 = p) :
    raw &&& 0x707F#32 = p ↔ opcode raw = opcode p ∧ funct3 raw = funct3 p := by
  constructor
  · intro h; rw [← h]
    constructor <;>
    · simp only [opcode, funct3]; ext i hi
      simp only [BitVec.getElem_extractLsb', BitVec.getLsbD_and]; interval_cases i <;> simp
  · rintro ⟨h, h3⟩
    have hb : ∀ i, i < 7 → raw.getLsbD i = p.getLsbD i := by
      intro i hi
      have := congrArg (fun v => v.getLsbD i) h
      simpa [opcode, hi] using this
    have hb3 : ∀ i, i < 3 → raw.getLsbD (12 + i) = p.getLsbD (12 + i) := by
      intro i hi
      have := congrArg (fun v => v.getLsbD i) h3
      simpa [funct3, hi] using this
    apply BitVec.eq_of_getLsbD_eq
    intro i hi
    have hpi := congrArg (fun v => v.getLsbD i) hp
    simp only [BitVec.getLsbD_and] at hpi ⊢
    have h7 := hb i
    have h3 := hb3 (i - 12)
    interval_cases i <;> simp_all

theorem maskFE00707F_iff {raw p : Word} (hp : p &&& 0xFE00707F#32 = p) :
    raw &&& 0xFE00707F#32 = p ↔ opcode raw = opcode p ∧ funct3 raw = funct3 p ∧ funct7 raw = funct7 p := by
  constructor
  · intro h; rw [← h]
    refine ⟨?_, ?_, ?_⟩ <;>
    · simp only [opcode, funct3, funct7]; ext i hi
      simp only [BitVec.getElem_extractLsb', BitVec.getLsbD_and]; interval_cases i <;> simp
  · rintro ⟨h, h3, h7⟩
    have hb : ∀ i, i < 7 → raw.getLsbD i = p.getLsbD i := by
      intro i hi
      have := congrArg (fun v => v.getLsbD i) h
      simpa [opcode, hi] using this
    have hb3 : ∀ i, i < 3 → raw.getLsbD (12 + i) = p.getLsbD (12 + i) := by
      intro i hi
      have := congrArg (fun v => v.getLsbD i) h3
      simpa [funct3, hi] using this
    have hb7 : ∀ i, i < 7 → raw.getLsbD (25 + i) = p.getLsbD (25 + i) := by
      intro i hi
      have := congrArg (fun v => v.getLsbD i) h7
      simpa [funct7, hi] using this
    apply BitVec.eq_of_getLsbD_eq
    intro i hi
    have hpi := congrArg (fun v => v.getLsbD i) hp
    simp only [BitVec.getLsbD_and] at hpi ⊢
    have h1 := hb i
    have h2 := hb3 (i - 12)
    have h4 := hb7 (i - 25)
    interval_cases i <;> simp_all

/-! ## Bytes and words (20_memory.md R45 to R47) -/

/-- A word is its four bytes, least-significant first. -/
theorem wordOfBytes_byteOf (v : Word) : wordOfBytes (byteOf v 0) (byteOf v 1) (byteOf v 2) (byteOf v 3) = v := by
  unfold wordOfBytes byteOf
  apply BitVec.eq_of_getLsbD_eq
  intro i hi
  simp only [BitVec.getLsbD_append, BitVec.getLsbD_extractLsb']
  interval_cases i <;> simp

/-- Byte `k` as a number. -/
theorem byteOf_toNat (v : Word) (k : Nat) : (byteOf v k).toNat = v.toNat / 2 ^ (8 * k) % 256 := by
  simp [byteOf, Nat.shiftRight_eq_div_pow]

theorem toNat_append_byte {n : Nat} (a : BitVec n) (b : Byte) : (a ++ b).toNat = a.toNat * 256 + b.toNat := by
  rw [BitVec.toNat_append]
  have := Nat.shiftLeft_add_eq_or_of_lt b.isLt a.toNat
  rw [← this, Nat.shiftLeft_eq]

/-- Four bytes as a number: little-endian (R45). -/
theorem wordOfBytes_toNat (b0 b1 b2 b3 : Byte) :
    (wordOfBytes b0 b1 b2 b3).toNat = b0.toNat + 256 * b1.toNat + 65536 * b2.toNat + 16777216 * b3.toNat := by
  unfold wordOfBytes
  have h1 := toNat_append_byte (b3 ++ b2 ++ b1) b0
  have h2 := toNat_append_byte (b3 ++ b2) b1
  have h3 := toNat_append_byte b3 b2
  refine h1.trans ?_
  omega

/-- Laying a word's bytes out and reading them back changes nothing. -/
theorem decodeTableWord_eq (nbits w : Nat) :
    decodeTableWord nbits w = decodeInstr (BitVec.ofNat 32 (w % 2 ^ nbits)) := by
  simp only [decodeTableWord, decodeBytes, wordOfBytes_byteOf, decode]
  cases decodeInstr (BitVec.ofNat 32 (w % 2 ^ nbits)) <;> rfl

theorem decode_eq_instr_iff (raw : Word) (i : Instr) : decode raw = .instr i ↔ decodeInstr raw = some i := by
  unfold decode; cases decodeInstr raw <;> simp

theorem decode_eq_illegal_iff (raw w : Word) : decode raw = .illegalEncoding w ↔ decodeInstr raw = none ∧ w = raw := by
  unfold decode; cases decodeInstr raw <;> simp [eq_comm]

end Sys2Proof
end

