-- ==== Sys2Proof/Laws/Memory.lean ====
section
/-! SUPPORT. The memory laws: a read after a write, the canonical form kept by every memory operation, and what the six
operations of the interface answer. -/

namespace Sys2Proof.Machine

/-! ## Cells -/

theorem readCell_eraseCell_same (cells : List Host.Cell) (a : Nat) : readCell (eraseCell cells a) a = none := by
  induction cells with
  | nil => rfl
  | cons c rest ih =>
    simp only [eraseCell, List.filter_cons] at ih ⊢
    by_cases h : c.1 = a
    · simpa [h] using ih
    · simpa [h, readCell] using ih

theorem readCell_eraseCell_other (cells : List Host.Cell) {a b : Nat} (h : b ≠ a) :
    readCell (eraseCell cells a) b = readCell cells b := by
  induction cells with
  | nil => rfl
  | cons c rest ih =>
    obtain ⟨d, w⟩ := c
    simp only [eraseCell, List.filter_cons] at ih ⊢
    by_cases hd : d = a
    · subst hd; simpa [readCell, h.symm] using ih
    · by_cases hb : d = b
      · simp [readCell, hb, h]
      · simpa [readCell, hd, hb] using ih

theorem readCell_insertCell_other (cells : List Host.Cell) {a b : Nat} (v : Byte) (h : b ≠ a) :
    readCell (insertCell cells a v) b = readCell cells b := by
  induction cells with
  | nil => simp [insertCell, readCell, h.symm]
  | cons c rest ih =>
    obtain ⟨d, w⟩ := c
    simp only [insertCell]
    split
    · simp [readCell, h.symm]
    · by_cases hb : d = b
      · simp [readCell, hb]
      · simp [readCell, hb, ih]

theorem readCell_insertCell_same (cells : List Host.Cell) (a : Nat) (v : Byte) (h : ∀ c ∈ cells, c.1 ≠ a) :
    readCell (insertCell cells a v) a = some v := by
  induction cells with
  | nil => simp [insertCell, readCell]
  | cons c rest ih =>
    obtain ⟨d, w⟩ := c
    have hd : d ≠ a := h (d, w) (by simp)
    simp only [insertCell]
    split
    · simp [readCell]
    · simp [readCell, hd, ih fun c hc => h c (by simp [hc])]

theorem mem_eraseCell {cells : List Host.Cell} {a : Nat} {c : Host.Cell} :
    c ∈ eraseCell cells a ↔ c ∈ cells ∧ c.1 ≠ a := by simp [eraseCell]

theorem mem_insertCell {cells : List Host.Cell} {a : Nat} {v : Byte} {c : Host.Cell} :
    c ∈ insertCell cells a v ↔ c = (a, v) ∨ c ∈ cells := by
  induction cells with
  | nil => simp [insertCell]
  | cons d rest ih =>
    obtain ⟨b, w⟩ := d
    simp only [insertCell]
    split <;> simp [ih]; tauto

/-- A read after a write of one byte, for every list of cells. -/
theorem readCell_writeCell (cells : List Host.Cell) (a b : Nat) (v : Byte) :
    readCell (writeCell cells a v) b = if b = a then some v else readCell cells b := by
  unfold writeCell
  by_cases h : b = a
  · subst h; rw [if_pos rfl, readCell_insertCell_same _ b v fun c hc => (mem_eraseCell.mp hc).2]
  · rw [if_neg h, readCell_insertCell_other _ v h, readCell_eraseCell_other cells h]

theorem insertCell_sorted {cells : List Host.Cell} {a : Nat} {v : Byte}
    (hs : cells.Pairwise fun c d => c.1 < d.1) (ha : ∀ c ∈ cells, c.1 ≠ a) :
    (insertCell cells a v).Pairwise fun c d => c.1 < d.1 := by
  induction cells with
  | nil => simp [insertCell]
  | cons c rest ih =>
    obtain ⟨b, w⟩ := c
    rw [List.pairwise_cons] at hs
    have hb : b ≠ a := ha (b, w) (by simp)
    simp only [insertCell]
    split
    · rename_i hlt
      refine List.pairwise_cons.mpr ⟨?_, List.pairwise_cons.mpr hs⟩
      intro c hc
      rcases List.mem_cons.mp hc with rfl | hc
      · exact hlt
      · exact Nat.lt_trans hlt (hs.1 c hc)
    · refine List.pairwise_cons.mpr ⟨?_, ih hs.2 fun c hc => ha c (by simp [hc])⟩
      intro c hc
      rcases mem_insertCell.mp hc with rfl | hc
      · simp only; omega
      · exact hs.1 c hc

/-! ## Bytes and the canonical form -/

@[simp] theorem Memory.setByte_windows (m : Memory) (a : Nat) (v : Byte) : (m.setByte a v).windows = m.windows := rfl

@[simp] theorem Memory.admitsByte_setByte (m : Memory) (a b : Nat) (v : Byte) :
    (m.setByte a v).admitsByte b = m.admitsByte b := rfl

/-- A read after a write of one byte: the byte written there, every other byte as before. -/
theorem Memory.byteAt_setByte (m : Memory) (a b : Nat) (v : Byte) :
    (m.setByte a v).byteAt b = if b = a then v else m.byteAt b := by
  unfold Memory.byteAt Memory.setByte
  rw [readCell_writeCell]
  split <;> rfl

/-- A byte nothing wrote is the unknown MEM_INIT (20_memory.md R54). -/
@[simp] theorem Memory.byteAt_reference (base size a : Nat) : (Memory.reference base size).byteAt a = Config.memInit a := rfl

/-- Writing an admitted byte keeps the canonical form. -/
theorem Memory.wf_setByte {m : Memory} {a : Nat} {v : Byte} (h : m.wf) (ha : m.admitsByte a = true) :
    (m.setByte a v).wf := by
  obtain ⟨hs, hadm, hw⟩ := h
  refine ⟨insertCell_sorted (hs.filter _) fun c hc => (mem_eraseCell.mp hc).2, ?_, hw⟩
  intro c hc
  rcases mem_insertCell.mp hc with rfl | hc
  · exact ha
  · exact hadm c (mem_eraseCell.mp hc).1

@[simp] theorem Memory.setBytes_windows (m : Memory) (a : Nat) (v : Word) (n : Nat) :
    (m.setBytes a v n).windows = m.windows := by
  induction n with
  | zero => rfl
  | succ n ih => simpa [Memory.setBytes] using ih

@[simp] theorem Memory.admitsByte_setBytes (m : Memory) (a : Nat) (v : Word) (n b : Nat) :
    (m.setBytes a v n).admitsByte b = m.admitsByte b := by
  simp [Memory.admitsByte]

@[simp] theorem Memory.admits_setBytes (m : Memory) (a : Nat) (v : Word) (n : Nat) (addr : Word) (k : Nat) :
    (m.setBytes a v n).admits addr k = m.admits addr k := by
  simp [Memory.admits]

/-- The bytes after a write of `n` of them: byte k of the value at a + k, every other byte as before (20_memory.md R46). -/
theorem Memory.byteAt_setBytes (m : Memory) (a : Nat) (v : Word) (n b : Nat) :
    (m.setBytes a v n).byteAt b = if a ≤ b ∧ b < a + n then byteOf v (b - a) else m.byteAt b := by
  induction n with
  | zero => simp [Memory.setBytes]
  | succ n ih =>
    rw [Memory.setBytes, Memory.byteAt_setByte, ih]
    by_cases h : b = a + n
    · subst h; simp
    · by_cases h2 : a ≤ b ∧ b < a + n
      · have : a ≤ b ∧ b < a + (n + 1) := by omega
        simp [h, h2, this]
      · have : ¬(a ≤ b ∧ b < a + (n + 1)) := by omega
        simp [h, h2, this]

theorem Memory.admits_iff (m : Memory) (addr : Word) (n : Nat) :
    m.admits addr n = true ↔ ∀ k, k < n → m.admitsByte (addr.toNat + k) = true := by
  simp [Memory.admits]

theorem Memory.wf_setBytes {m : Memory} {a n : Nat} {v : Word} (h : m.wf)
    (ha : ∀ k, k < n → m.admitsByte (a + k) = true) : (m.setBytes a v n).wf := by
  induction n with
  | zero => exact h
  | succ n ih =>
    exact Memory.wf_setByte (ih fun k hk => ha k (by omega)) (by simpa using ha n (by omega))

/-! ## The six operations -/

theorem Memory.load8_eq (m : Memory) (addr : Word) :
    m.load8 addr = if m.admits addr 1 then some (m.byteAt addr.toNat) else none := rfl

theorem Memory.load16_eq (m : Memory) (addr : Word) :
    m.load16 addr =
      if m.admits addr 2 then some (m.byteAt (addr.toNat + 1) ++ m.byteAt addr.toNat) else none := rfl

theorem Memory.load32_eq (m : Memory) (addr : Word) :
    m.load32 addr = if m.admits addr 4 then
      some (wordOfBytes (m.byteAt addr.toNat) (m.byteAt (addr.toNat + 1)) (m.byteAt (addr.toNat + 2))
        (m.byteAt (addr.toNat + 3))) else none := rfl

/-- A store is refused whole, or writes its bytes. -/
theorem Memory.store8_cases {m m' : Memory} {addr v : Word} (h : m.store8 addr v = some m') :
    m.admits addr 1 = true ∧ m' = m.setBytes addr.toNat v 1 := by
  unfold Memory.store8 at h; split at h <;> simp_all

theorem Memory.store16_cases {m m' : Memory} {addr v : Word} (h : m.store16 addr v = some m') :
    m.admits addr 2 = true ∧ m' = m.setBytes addr.toNat v 2 := by
  unfold Memory.store16 at h; split at h <;> simp_all

theorem Memory.store32_cases {m m' : Memory} {addr v : Word} (h : m.store32 addr v = some m') :
    m.admits addr 4 = true ∧ m' = m.setBytes addr.toNat v 4 := by
  unfold Memory.store32 at h; split at h <;> simp_all

/-- The stores of the interface keep the canonical form. -/
theorem Memory.wf_store8 {m m' : Memory} {addr v : Word} (h : m.wf) (hs : m.store8 addr v = some m') : m'.wf := by
  obtain ⟨ha, rfl⟩ := Memory.store8_cases hs; exact Memory.wf_setBytes h ((m.admits_iff _ _).mp ha)

theorem Memory.wf_store16 {m m' : Memory} {addr v : Word} (h : m.wf) (hs : m.store16 addr v = some m') : m'.wf := by
  obtain ⟨ha, rfl⟩ := Memory.store16_cases hs; exact Memory.wf_setBytes h ((m.admits_iff _ _).mp ha)

theorem Memory.wf_store32 {m m' : Memory} {addr v : Word} (h : m.wf) (hs : m.store32 addr v = some m') : m'.wf := by
  obtain ⟨ha, rfl⟩ := Memory.store32_cases hs; exact Memory.wf_setBytes h ((m.admits_iff _ _).mp ha)

/-! ## The host's operations -/

@[simp] theorem Memory.hostWrite_windows (m : Memory) (a : Nat) (v : Byte) : (m.hostWrite a v).windows = m.windows := by
  unfold Memory.hostWrite; split <;> rfl

/-- The host's write of an admitted byte (20_memory.md R59). -/
theorem Memory.byteAt_hostWrite {m : Memory} {a : Nat} (h : m.admitsByte a = true) (v : Byte) (b : Nat) :
    (m.hostWrite a v).byteAt b = if b = a then v else m.byteAt b := by
  rw [Memory.hostWrite, if_pos h, Memory.byteAt_setByte]

@[simp] theorem Memory.hostLoad_windows (m : Memory) (a : Nat) (bs : List Byte) : (m.hostLoad a bs).windows = m.windows := by
  induction bs generalizing m a with
  | nil => rfl
  | cons b rest ih => exact (ih (m.hostWrite a b) (a + 1)).trans (Memory.hostWrite_windows m a b)

theorem Memory.wf_hostWrite {m : Memory} (h : m.wf) (a : Nat) (v : Byte) : (m.hostWrite a v).wf := by
  unfold Memory.hostWrite
  split
  · exact Memory.wf_setByte h ‹_›
  · exact h

theorem Memory.wf_hostLoad {m : Memory} (h : m.wf) (a : Nat) (bs : List Byte) : (m.hostLoad a bs).wf := by
  induction bs generalizing m a with
  | nil => exact h
  | cons b rest ih => exact ih (Memory.wf_hostWrite h a b) (a + 1)

theorem Memory.wf_reference {base size : Nat} (h : base + size ≤ 2 ^ 32) : (Memory.reference base size).wf := by
  simp [Memory.reference, Memory.wf]; omega

theorem Memory.admitsByte_admitWord {m : Memory} {pc : Word} {a : Nat} (h : m.admitsByte a = true) :
    (admitWord m pc).admitsByte a = true := by
  unfold admitWord
  split
  · exact h
  · simp only [Memory.admitsByte, Bool.and_eq_true, List.any_append, Bool.or_eq_true] at h ⊢
    exact ⟨h.1, Or.inl h.2⟩

theorem alignedPc_toNat (pc : Word) : (alignedPc pc).toNat = pc.toNat / 4 * 4 := by
  have h : alignedPc pc = (pc >>> 2) <<< 2 := by
    unfold alignedPc
    apply BitVec.eq_of_getLsbD_eq
    intro i hi
    have : i = 0 ∨ i = 1 ∨ 2 ≤ i := by omega
    rcases this with rfl | rfl | h2
    · simp
    · simp
    · have hm : (0xFFFFFFFC#32).getLsbD i = true := by
        have : ∀ j : Fin 32, 2 ≤ j.val → (0xFFFFFFFC#32).getLsbD j.val = true := by decide
        exact this ⟨i, hi⟩ h2
      simp [hm, hi, h2, Nat.not_lt.mpr h2]
  rw [h]
  simp [Nat.shiftRight_eq_div_pow, Nat.shiftLeft_eq]
  omega

/-- The word at an aligned pc is admitted once `admitWord` has run. -/
theorem Memory.admits_admitWord (m : Memory) {pc : Word} (h : pc.toNat % 4 = 0) : (admitWord m pc).admits pc 4 = true := by
  unfold admitWord
  split
  · assumption
  · rw [Memory.admits_iff]
    intro k hk
    have := pc.isLt
    simp [Memory.admitsByte, Window.holds]
    omega

theorem Memory.wf_admitWord {m : Memory} {pc : Word} (h : m.wf) (ha : pc.toNat % 4 = 0) : (admitWord m pc).wf := by
  obtain ⟨hs, hadm, hw⟩ := h
  refine ⟨?_, ?_, ?_⟩
  · unfold admitWord; split <;> exact hs
  · intro c hc
    exact Memory.admitsByte_admitWord (hadm c (by unfold admitWord at hc; split at hc <;> exact hc))
  · intro w hw'
    unfold admitWord at hw'
    split at hw'
    · exact hw w hw'
    · have := pc.isLt
      rcases List.mem_append.mp hw' with hw' | hw'
      · exact hw w hw'
      · rw [List.mem_singleton] at hw'
        subst hw'; simp only; omega

theorem Memory.wf_placeWord {m : Memory} {pc w : Word} (h : m.wf) (ha : pc.toNat % 4 = 0) : (placeWord m pc w).wf :=
  Memory.wf_setBytes (Memory.wf_admitWord h ha) ((Memory.admits_iff _ _ _).mp (Memory.admits_admitWord m ha))

theorem reset_mem_wf : State.reset.mem.wf := by decide

end Sys2Proof.Machine
end

