-- ==== Sys2Proof/Laws/State.lean ====
section
/-! SUPPORT. One lemma per field and update of State, and the register laws. -/

namespace Sys2Proof.Machine

section Fields
variable (s : State) (i : RegIdx) (v t : Word) (m : Memory) (st : Status) (p : PcAfter)

@[simp] theorem State.setPc_regs : (s.setPc t).regs = s.regs := rfl
@[simp] theorem State.setPc_pc : (s.setPc t).pc = t := rfl
@[simp] theorem State.setPc_status : (s.setPc t).status = s.status := rfl
@[simp] theorem State.setPc_config : (s.setPc t).config = s.config := rfl
@[simp] theorem State.setPc_mem : (s.setPc t).mem = s.mem := rfl

@[simp] theorem State.setMem_regs : (s.setMem m).regs = s.regs := rfl
@[simp] theorem State.setMem_pc : (s.setMem m).pc = s.pc := rfl
@[simp] theorem State.setMem_status : (s.setMem m).status = s.status := rfl
@[simp] theorem State.setMem_config : (s.setMem m).config = s.config := rfl
@[simp] theorem State.setMem_mem : (s.setMem m).mem = m := rfl

@[simp] theorem State.setX_pc : (s.setX i v).pc = s.pc := by unfold State.setX; split <;> rfl
@[simp] theorem State.setX_status : (s.setX i v).status = s.status := by unfold State.setX; split <;> rfl
@[simp] theorem State.setX_config : (s.setX i v).config = s.config := by unfold State.setX; split <;> rfl
@[simp] theorem State.setX_mem : (s.setX i v).mem = s.mem := by unfold State.setX; split <;> rfl

@[simp] theorem raise_regs : (raise st p s).regs = s.regs := rfl
@[simp] theorem raise_pc : (raise st p s).pc = PcAfter.resolve p s.pc := rfl
@[simp] theorem raise_status : (raise st p s).status = st := rfl
@[simp] theorem raise_config : (raise st p s).config = s.config := rfl
@[simp] theorem raise_mem : (raise st p s).mem = s.mem := rfl

@[simp] theorem resolve_instr : PcAfter.resolve .instr t = t := rfl
@[simp] theorem resolve_next : PcAfter.resolve .next t = t + 4 := rfl

/-! ## Registers -/

theorem State.x_congr {s t : State} (h : t.regs = s.regs) (r : RegIdx) : t.x r = s.x r := by
  unfold State.x; simp [h]

@[simp] theorem State.x_setPc (r : RegIdx) : (s.setPc t).x r = s.x r := rfl
@[simp] theorem State.x_setMem (r : RegIdx) : (s.setMem m).x r = s.x r := rfl
@[simp] theorem x_raise (r : RegIdx) : (raise st p s).x r = s.x r := rfl

/-- x0 always yields 0 (10_state.md R21). -/
@[simp] theorem State.x_zero : s.x 0#5 = 0#32 := by simp [State.x]

/-- A write to x0 is discarded (R21). -/
@[simp] theorem State.setX_zero : s.setX 0#5 v = s := by simp [State.setX]

theorem State.x_setX_same (h : i ≠ 0#5) : (s.setX i v).x i = v := by
  unfold State.x State.setX
  rw [dif_neg h]
  simp [h]

theorem State.x_setX_other {r : RegIdx} (h : r ≠ i) : (s.setX i v).x r = s.x r := by
  unfold State.x State.setX
  split
  · rfl
  · split
    · rfl
    · have : i.toNat - 1 ≠ r.toNat - 1 := by
        intro hc; apply h; apply BitVec.eq_of_toNat_eq
        have := BitVec.toNat_ne.mp ‹¬i = 0#5›; have := BitVec.toNat_ne.mp ‹¬r = 0#5›
        simp at *; omega
      simp [this]

/-- A read after a write, x0 included. -/
theorem State.x_setX (r : RegIdx) :
    (s.setX i v).x r = if r = i then (if i = 0#5 then 0#32 else v) else s.x r := by
  by_cases h : r = i
  · subst h
    by_cases h0 : r = 0#5
    · subst h0; rw [State.setX_zero, State.x_zero]; rfl
    · rw [State.x_setX_same s r v h0, if_pos rfl, if_neg h0]
  · rw [State.x_setX_other s i v h, if_neg h]

end Fields

end Sys2Proof.Machine
end

