-- ==== Sys2Proof/Laws/Ops.lean ====
section
/-! SUPPORT. One lemma for each shared operation: everything it can do. Proofs about instructions cite these. -/

namespace Sys2Proof.Machine

variable {s t : State} {rd : RegIdx} {v addr target : Word} {n : Nat}

/-! ## Vocabulary -/

theorem SameRegs.of_regs (h : t.regs = s.regs) : SameRegs s t := fun r => State.x_congr h r

theorem SameMem.of_mem (h : t.mem = s.mem) : SameMem s t := by simp [SameMem, h]

theorem onlyReg_setX (s : State) (rd : RegIdx) (v pc : Word) : OnlyReg s ((s.setX rd v).setPc pc) rd v :=
  ⟨by simp [State.x_setX], fun r hr => by simp [State.x_setX, hr]⟩

theorem admitted_iff (m : Memory) (addr : Word) (n : Nat) : Admitted m addr n ↔ m.admits addr n = true :=
  (m.admits_iff addr n).symm

/-- A wider access is admitted only if the narrower is. -/
theorem Admitted.mono {m : Memory} {k : Nat} (h : Admitted m addr n) (hk : k ≤ n) : Admitted m addr k :=
  fun j hj => h j (by omega)

theorem pcLeft_raise (st : Status) (p : PcAfter) (s : State) : PcLeft p s (raise st p s) := by
  constructor <;> rintro rfl <;> rfl

/-- The bytes after `setBytes`, as the vocabulary says it. -/
theorem storedBytes_setBytes (s : State) (a n : Nat) (v pc : Word) :
    StoredBytes s ((s.setMem (s.mem.setBytes a v n)).setPc pc) a n v := by
  refine ⟨by simp, fun k hk => ?_, fun b hb => ?_⟩
  · simp only [State.setPc_mem, State.setMem_mem]
    rw [Memory.byteAt_setBytes, if_pos (by omega), byteOf_toNat]
    congr; omega
  · simp only [State.setPc_mem, State.setMem_mem]
    rw [Memory.byteAt_setBytes, if_neg (by omega)]

/-! ## What each shared operation does -/

/-- `writeResult` answers the state with rd written and the pc moved on. -/
theorem writeResult_eq (rd : RegIdx) (v : Word) (s : State) :
    writeResult rd v s = .next ((s.setX rd v).setPc (s.pc + 4)) := rfl

theorem writesResult_of_eq {i : Instr} (h : exec i s = writeResult rd v s) : WritesResult i s rd v :=
  ⟨_, h, onlyReg_setX s rd v _, rfl, SameMem.of_mem (by simp), by simp, by simp⟩

theorem jumpsTo_of_eq {i : Instr} (h : exec i s = jumpTo rd target s) : JumpsTo i s rd target :=
  ⟨_, h, onlyReg_setX s rd _ _, rfl, SameMem.of_mem (by simp), by simp, by simp⟩

theorem goesTo_of_eq {i : Instr} (h : exec i s = .next (s.setPc target)) : GoesTo i s target :=
  ⟨_, h, rfl, SameRegs.of_regs rfl, SameMem.of_mem rfl, rfl, rfl⟩

theorem raisesDataFault_of_eq {i : Instr} {r : FaultRecord} (h : exec i s = .next (raiseDataFault r s)) :
    RaisesDataFault i s r :=
  ⟨_, h, rfl, pcLeft_raise _ _ s, SameRegs.of_regs rfl, SameMem.of_mem rfl, rfl⟩

theorem halts_of_eq {i : Instr} {c : HaltCause} (h : exec i s = .next (raiseHalt c s)) : Halts i s c :=
  ⟨_, h, rfl, pcLeft_raise _ _ s, SameRegs.of_regs rfl, SameMem.of_mem rfl, rfl⟩

theorem storesBytes_of_eq {i : Instr} {a : Nat}
    (h : exec i s = .next ((s.setMem (s.mem.setBytes a v n)).setPc (s.pc + 4))) : StoresBytes i s a n v :=
  ⟨_, h, storedBytes_setBytes s a n v _, SameRegs.of_regs rfl, rfl, rfl, rfl⟩

theorem branchTo_true (target : Word) (s : State) : branchTo true target s = .next (s.setPc target) := rfl

theorem branchTo_false (target : Word) (s : State) : branchTo false target s = .next (s.setPc (s.pc + 4)) := rfl

/-- `loadInto`, alignment broken (R160). -/
theorem loadInto_misaligned (h : addr.toNat % n ≠ 0) (value : Option Word) :
    loadInto rd addr n value s = .next (raiseDataFault (.misalignedAccess .load s.pc addr) s) := by
  simp [loadInto, h]

/-- `loadInto`, not admitted. -/
theorem loadInto_outOfBounds (h : addr.toNat % n = 0) :
    loadInto rd addr n none s = .next (raiseDataFault (.outOfBoundsAccess .load s.pc addr) s) := by
  simp [loadInto, h]

/-- `loadInto`, a value. -/
theorem loadInto_value (h : addr.toNat % n = 0) (v : Word) :
    loadInto rd addr n (some v) s = writeResult rd v s := by simp [loadInto, h]

/-- `storeTo`, alignment broken (R166). -/
theorem storeTo_misaligned (h : addr.toNat % n ≠ 0) (w : Option Memory) :
    storeTo addr n w s = .next (raiseDataFault (.misalignedAccess .store s.pc addr) s) := by
  simp [storeTo, h]

/-- `storeTo`, not admitted: no byte is written. -/
theorem storeTo_outOfBounds (h : addr.toNat % n = 0) :
    storeTo addr n none s = .next (raiseDataFault (.outOfBoundsAccess .store s.pc addr) s) := by
  simp [storeTo, h]

/-- `storeTo`, the bytes written. -/
theorem storeTo_written (h : addr.toNat % n = 0) (m : Memory) :
    storeTo addr n (some m) s = .next ((s.setMem m).setPc (s.pc + 4)) := by simp [storeTo, h]

/-! ## What the interface answers (20_memory.md R40, R45, R46) -/

section Interface
variable {m : Memory} {a : Word}

theorem load8_of_admitted (h : Admitted m a 1) : m.load8 a = some (m.byteAt a.toNat) := by
  rw [admitted_iff] at h; simp [Memory.load8, h]

theorem load16_of_admitted (h : Admitted m a 2) :
    m.load16 a = some (m.byteAt (a.toNat + 1) ++ m.byteAt a.toNat) := by
  rw [admitted_iff] at h; simp [Memory.load16, h]

theorem load32_of_admitted (h : Admitted m a 4) :
    m.load32 a = some (wordOfBytes (m.byteAt a.toNat) (m.byteAt (a.toNat + 1)) (m.byteAt (a.toNat + 2))
      (m.byteAt (a.toNat + 3))) := by
  rw [admitted_iff] at h; simp [Memory.load32, h]

theorem load8_of_not_admitted (h : ¬ Admitted m a 1) : m.load8 a = none := by
  rw [admitted_iff] at h; simp [Memory.load8, h]

theorem load16_of_not_admitted (h : ¬ Admitted m a 2) : m.load16 a = none := by
  rw [admitted_iff] at h; simp [Memory.load16, h]

theorem load32_of_not_admitted (h : ¬ Admitted m a 4) : m.load32 a = none := by
  rw [admitted_iff] at h; simp [Memory.load32, h]

theorem store8_of_admitted (h : Admitted m a 1) (w : Word) : m.store8 a w = some (m.setBytes a.toNat w 1) := by
  rw [admitted_iff] at h; simp [Memory.store8, h]

theorem store16_of_admitted (h : Admitted m a 2) (w : Word) : m.store16 a w = some (m.setBytes a.toNat w 2) := by
  rw [admitted_iff] at h; simp [Memory.store16, h]

theorem store32_of_admitted (h : Admitted m a 4) (w : Word) : m.store32 a w = some (m.setBytes a.toNat w 4) := by
  rw [admitted_iff] at h; simp [Memory.store32, h]

theorem store8_of_not_admitted (h : ¬ Admitted m a 1) (w : Word) : m.store8 a w = none := by
  rw [admitted_iff] at h; simp [Memory.store8, h]

theorem store16_of_not_admitted (h : ¬ Admitted m a 2) (w : Word) : m.store16 a w = none := by
  rw [admitted_iff] at h; simp [Memory.store16, h]

theorem store32_of_not_admitted (h : ¬ Admitted m a 4) (w : Word) : m.store32 a w = none := by
  rw [admitted_iff] at h; simp [Memory.store32, h]

/-- MEM_ADMIT does not change, so what is admitted does not (R41). -/
theorem admitted_setBytes (m : Memory) (b : Nat) (w : Word) (k : Nat) (a : Word) (n : Nat) :
    Admitted (m.setBytes b w k) a n ↔ Admitted m a n := by simp [Admitted]

/-- The two bytes of a `load16` as a number. -/
theorem halfAt_eq (m : Memory) (a : Nat) : (m.byteAt (a + 1) ++ m.byteAt a).toNat = halfAt m a := by
  rw [toNat_append_byte]; unfold halfAt; omega

/-- The four bytes of a `load32` as a number. -/
theorem wordAt_eq (m : Memory) (a : Nat) :
    (wordOfBytes (m.byteAt a) (m.byteAt (a + 1)) (m.byteAt (a + 2)) (m.byteAt (a + 3))).toNat = wordAt m a := by
  rw [wordOfBytes_toNat]; unfold wordAt halfAt; simp only [Nat.add_assoc, Nat.reduceAdd]; omega

/-- Sign extension, as the vocabulary says it (00_scope.md R12). -/
theorem signExtend_eq_widenSigned {w : Nat} (v : BitVec w) (hw : 0 < w) (h32 : w ≤ 32) :
    v.signExtend 32 = widenSigned w v.toNat := by
  unfold widenSigned
  have hv : v.toInt = if v.toNat < 2 ^ (w - 1) then (v.toNat : Int) else (v.toNat : Int) - 2 ^ w := by
    rw [BitVec.toInt_eq_toNat_cond]
    have : 2 ^ w = 2 * 2 ^ (w - 1) := by rw [← pow_succ']; congr; omega
    split <;> split <;> first | rfl | omega
  rw [← hv]
  apply BitVec.eq_of_toInt_eq
  rw [BitVec.toInt_signExtend_of_le h32, BitVec.toInt_ofInt]
  have h1 := BitVec.le_toInt v
  have h2 := BitVec.toInt_lt (x := v)
  have h3 : (2 : Int) ^ (w - 1) ≤ 2 ^ 31 := pow_le_pow_right₀ (by norm_num) (by omega)
  rw [Int.bmod_eq_of_le] <;> omega

/-- An arithmetic right shift is the signed value divided by a power of two, rounded down. -/
theorem sshiftRight_eq_div (v : Word) (k : Nat) : v.sshiftRight k = BitVec.ofInt 32 (v.toInt / 2 ^ k) := by
  have := Int.shiftRight_eq_div_pow v.toInt k
  push_cast at this
  rw [← this, ← BitVec.toInt_sshiftRight, BitVec.ofInt_toInt]

end Interface

/-! ## Operands -/

/-- A shift amount is the operand modulo 32 (R120). -/
theorem shiftAmount_eq (v : Word) : shiftAmount v = v.toNat % 32 := by simp [shiftAmount]

/-- JALR's target has bit 0 cleared and nothing else (R183). -/
theorem registerTarget_toNat (rs1 : RegIdx) (imm : Word) (s : State) :
    (registerTarget rs1 imm s).toNat = (s.x rs1 + imm).toNat / 2 * 2 := by
  unfold registerTarget
  generalize s.x rs1 + imm = w
  have h : w &&& 0xFFFFFFFE#32 = (w >>> 1) <<< 1 := by
    apply BitVec.eq_of_getLsbD_eq
    intro i hi
    have : i = 0 ∨ 1 ≤ i := by omega
    rcases this with rfl | h1
    · simp
    · have hm : (0xFFFFFFFE#32).getLsbD i = true := by
        have : ∀ j : Fin 32, 1 ≤ j.val → (0xFFFFFFFE#32).getLsbD j.val = true := by decide
        exact this ⟨i, hi⟩ h1
      simp [hm, hi, h1, Nat.not_lt.mpr h1]
  rw [h]
  simp [Nat.shiftRight_eq_div_pow, Nat.shiftLeft_eq]
  omega

end Sys2Proof.Machine
end

