-- ==== Sys2Proof/Laws/Exec.lean ====
section
/-! SUPPORT. What an instruction, and a step, can do, said once: the inversion lemmas that invariant and frame proofs cite
instead of unfolding `exec` and `step`. -/

namespace Sys2Proof.Machine

/-- Everything an instruction can do to the state (40_execution_engine.md R101). -/
inductive ExecEffect (i : Instr) (s : State) : State → Prop where
  /-- rd written, pc moved on or, for a jump, to an even target when the offset is one the decoder gives. -/
  | wrote (rd : RegIdx) (v pc : Word) (hd : i.dest = some rd) (hs : i.storeSize = none)
      (hpc : i.wellFormed = true → s.pc.toNat % 2 = 0 → pc.toNat % 2 = 0) : ExecEffect i s ((s.setX rd v).setPc pc)
  /-- Only the pc moved: a branch. -/
  | moved (pc : Word) (hd : i.dest = none) (hs : i.storeSize = none)
      (hpc : i.wellFormed = true → s.pc.toNat % 2 = 0 → pc.toNat % 2 = 0) : ExecEffect i s (s.setPc pc)
  /-- SB, SH or SW: `n` admitted bytes of x[rs2] stored at its aligned effective address, pc moved on. -/
  | stored (rs1 rs2 : RegIdx) (imm : Word) (n : Nat)
      (hi : (i, n) ∈ [(.sb rs1 rs2 imm, 1), (.sh rs1 rs2 imm, 2), (.sw rs1 rs2 imm, 4)])
      (hd : i.dest = none) (hs : i.storeSize = some n) (ha : (effectiveAddress rs1 imm s).toNat % n = 0)
      (hadm : s.mem.admits (effectiveAddress rs1 imm s) n = true) :
      ExecEffect i s
        ((s.setMem (s.mem.setBytes (effectiveAddress rs1 imm s).toNat (s.x rs2) n)).setPc (s.pc + 4))
  /-- A load or store raised a misaligned access of 2 or 4 bytes. -/
  | misaligned (cls : AccessClass) (addr : Word) (n : Nat) (hn : n = 2 ∨ n = 4) (hc : cls ≠ .fetch)
      (ha : addr.toNat % n ≠ 0) : ExecEffect i s (raiseDataFault (.misalignedAccess cls s.pc addr) s)
  /-- A load or store raised an out-of-bounds access of at most 4 bytes. -/
  | outOfBounds (cls : AccessClass) (addr : Word) (n : Nat) (hn : n ≤ 4) (hc : cls ≠ .fetch)
      (ha : addr.toNat % n = 0) (hadm : ¬ Admitted s.mem addr n) :
      ExecEffect i s (raiseDataFault (.outOfBoundsAccess cls s.pc addr) s)
  /-- ECALL or EBREAK halted. -/
  | halted (cause : HaltCause) (hd : i.dest = none) (hs : i.storeSize = none) : ExecEffect i s (raiseHalt cause s)

theorem even_add {a b : Word} (ha : a.toNat % 2 = 0) (hb : b.toNat % 2 = 0) : (a + b).toNat % 2 = 0 := by
  rw [BitVec.toNat_add]; omega

theorem even_of_toInt {a : Word} (h : a.toInt % 2 = 0) : a.toNat % 2 = 0 := by
  have := bit0_of_even h
  simpa [BitVec.getLsbD, Nat.testBit_zero] using this

theorem even_add_four {a : Word} (ha : a.toNat % 2 = 0) : (a + 4#32).toNat % 2 = 0 := even_add ha (by decide)

theorem even_of_fitsB {imm : Word} (h : fitsB imm = true) : imm.toNat % 2 = 0 :=
  even_of_toInt (by simp only [fitsB, decide_eq_true_eq] at h; exact h.2.2)

theorem even_of_fitsJ {imm : Word} (h : fitsJ imm = true) : imm.toNat % 2 = 0 :=
  even_of_toInt (by simp only [fitsJ, decide_eq_true_eq] at h; exact h.2.2)

section Shared
variable {i : Instr} {s t : State} {rd : RegIdx} {v addr target : Word} {n : Nat}

theorem effect_writeResult (h : writeResult rd v s = .next t) (hd : i.dest = some rd) (hs : i.storeSize = none) :
    ExecEffect i s t := by
  cases h; exact .wrote rd v _ hd hs fun _ => even_add_four

theorem effect_loadInto {value : Option Word} (h : loadInto rd addr n value s = .next t) (hd : i.dest = some rd)
    (hs : i.storeSize = none) (hn : n = 1 ∨ n = 2 ∨ n = 4) (hv : value = none → ¬ Admitted s.mem addr n) :
    ExecEffect i s t := by
  by_cases ha : addr.toNat % n = 0
  · cases value with
    | none => rw [loadInto_outOfBounds ha] at h; cases h; exact .outOfBounds _ _ n (by omega) (by simp) ha (hv rfl)
    | some w => rw [loadInto_value ha] at h; exact effect_writeResult h hd hs
  · rw [loadInto_misaligned ha] at h; cases h
    refine .misaligned _ _ n ?_ (by simp) ha
    rcases hn with rfl | h | h
    · omega
    · exact .inl h
    · exact .inr h

theorem effect_storeTo {written : Option Memory} {rs1 rs2 : RegIdx} {imm : Word}
    (h : storeTo (effectiveAddress rs1 imm s) n written s = .next t)
    (hi : (i, n) ∈ [(.sb rs1 rs2 imm, 1), (.sh rs1 rs2 imm, 2), (.sw rs1 rs2 imm, 4)]) (hd : i.dest = none)
    (hs : i.storeSize = some n) (hn : n = 1 ∨ n = 2 ∨ n = 4)
    (hv : written = none → ¬ Admitted s.mem (effectiveAddress rs1 imm s) n)
    (hw : ∀ m, written = some m → s.mem.admits (effectiveAddress rs1 imm s) n = true ∧
      m = s.mem.setBytes (effectiveAddress rs1 imm s).toNat (s.x rs2) n) :
    ExecEffect i s t := by
  by_cases ha : (effectiveAddress rs1 imm s).toNat % n = 0
  · cases written with
    | none => rw [storeTo_outOfBounds ha] at h; cases h; exact .outOfBounds _ _ n (by omega) (by simp) ha (hv rfl)
    | some m =>
      rw [storeTo_written ha] at h; cases h
      obtain ⟨hadm, rfl⟩ := hw m rfl
      exact .stored rs1 rs2 imm n hi hd hs ha hadm
  · rw [storeTo_misaligned ha] at h; cases h
    refine .misaligned _ _ n ?_ (by simp) ha
    rcases hn with rfl | h | h
    · omega
    · exact .inl h
    · exact .inr h

theorem effect_branchTo {taken : Bool} {imm : Word} (h : branchTo taken (relativeTarget imm s) s = .next t)
    (hd : i.dest = none) (hs : i.storeSize = none) (hi : i.wellFormed = true → fitsB imm = true) :
    ExecEffect i s t := by
  cases h
  refine .moved _ hd hs fun hw hp => ?_
  cases taken
  · exact even_add_four hp
  · exact even_add hp (even_of_fitsB (hi hw))

end Shared

/-! ## When a load or store is refused by the memory -/

theorem load8_none {m : Memory} {a : Word} (h : m.load8 a = none) : ¬ Admitted m a 1 := by
  rw [admitted_iff]; unfold Memory.load8 at h; split at h <;> simp_all

theorem load16_none {m : Memory} {a : Word} (h : m.load16 a = none) : ¬ Admitted m a 2 := by
  rw [admitted_iff]; unfold Memory.load16 at h; split at h <;> simp_all

theorem load32_none {m : Memory} {a : Word} (h : m.load32 a = none) : ¬ Admitted m a 4 := by
  rw [admitted_iff]; unfold Memory.load32 at h; split at h <;> simp_all

theorem store8_none {m : Memory} {a v : Word} (h : m.store8 a v = none) : ¬ Admitted m a 1 := by
  rw [admitted_iff]; unfold Memory.store8 at h; split at h <;> simp_all

theorem store16_none {m : Memory} {a v : Word} (h : m.store16 a v = none) : ¬ Admitted m a 2 := by
  rw [admitted_iff]; unfold Memory.store16 at h; split at h <;> simp_all

theorem store32_none {m : Memory} {a v : Word} (h : m.store32 a v = none) : ¬ Admitted m a 4 := by
  rw [admitted_iff]; unfold Memory.store32 at h; split at h <;> simp_all

/-- Every instruction's next state is one of the effects above. -/
theorem exec_effect {i : Instr} {s t : State} (h : exec i s = .next t) : ExecEffect i s t := by
  cases i with
  | add | sub | and | or | xor | slt | sltu | sll | srl | sra => exact effect_writeResult h rfl rfl
  | addi | andi | ori | xori | slti | sltiu | slli | srli | srai => exact effect_writeResult h rfl rfl
  | lb | lbu => exact effect_loadInto h rfl rfl (by simp) fun hv => load8_none (Option.map_eq_none_iff.mp hv)
  | lh | lhu => exact effect_loadInto h rfl rfl (by simp) fun hv => load16_none (Option.map_eq_none_iff.mp hv)
  | lw => exact effect_loadInto h rfl rfl (by simp) load32_none
  | sb => exact effect_storeTo h (by simp) rfl rfl (by simp) store8_none fun _ => Memory.store8_cases
  | sh => exact effect_storeTo h (by simp) rfl rfl (by simp) store16_none fun _ => Memory.store16_cases
  | sw => exact effect_storeTo h (by simp) rfl rfl (by simp) store32_none fun _ => Memory.store32_cases
  | jal rd imm =>
    cases h
    exact .wrote rd _ _ rfl rfl fun hw hp => even_add hp (even_of_fitsJ hw)
  | jalr rd rs1 imm =>
    cases h
    exact .wrote rd _ _ rfl rfl fun _ _ => by rw [registerTarget_toNat]; omega
  | beq | bne | blt | bge | bltu | bgeu => exact effect_branchTo h rfl rfl id
  | ecall => cases h; exact .halted _ rfl rfl
  | ebreak => cases h; exact .halted _ rfl rfl

/-- Every instruction answers a next state: no meaning faults or refuses. -/
theorem exec_answers_next (i : Instr) (s : State) : ∃ t, exec i s = .next t := by
  have hl : ∀ rd a n v, ∃ t, loadInto rd a n v s = .next t := by
    intro rd a n v; unfold loadInto; split
    · exact ⟨_, rfl⟩
    · cases v <;> exact ⟨_, rfl⟩
  have hst : ∀ a n w, ∃ t, storeTo a n w s = .next t := by
    intro a n w; unfold storeTo; split
    · exact ⟨_, rfl⟩
    · cases w <;> exact ⟨_, rfl⟩
  cases i with
  | lb | lh | lw | lbu | lhu => exact hl ..
  | sb | sh | sw => exact hst ..
  | _ => exact ⟨_, rfl⟩

/-! ## The step -/

/-- A fetch or decode fault, and why it was raised (40_execution_engine.md R100, R229). -/
inductive FetchFault (s : State) : FaultRecord → Prop where
  | misaligned (h : s.pc.toNat % 4 ≠ 0) : FetchFault s (.misalignedAccess .fetch s.pc s.pc)
  | outOfBounds (h : s.pc.toNat % 4 = 0) (hadm : ¬ Admitted s.mem s.pc 4) :
      FetchFault s (.outOfBoundsAccess .fetch s.pc s.pc)
  | illegal (h : s.pc.toNat % 4 = 0) (raw : Word) (hf : s.mem.load32 s.pc = some raw)
      (hd : decode raw = .illegalEncoding raw) : FetchFault s (.illegalEncoding s.pc raw)

theorem fetchDecode_fault {s : State} {r : FaultRecord} (h : fetchDecode s = .inr r) : FetchFault s r := by
  unfold fetchDecode fetch at h
  by_cases ha : s.pc.toNat % 4 = 0
  · simp only [ha, ne_eq, not_true_eq_false, if_false] at h
    cases hl : s.mem.load32 s.pc with
    | none => simp only [hl] at h; cases h; exact .outOfBounds ha (load32_none hl)
    | some raw =>
      simp only [hl] at h
      cases hd : decode raw with
      | instr i => simp [hd] at h
      | illegalEncoding w =>
        simp only [hd] at h; cases h
        obtain rfl := (decode_eq_illegal_iff raw w).mp hd |>.2
        exact .illegal ha _ hl hd
  · simp only [ha, ne_eq, not_false_eq_true, if_true] at h; cases h; exact .misaligned ha

theorem fetchDecode_instr {s : State} {i : Instr} (h : fetchDecode s = .inl i) :
    s.pc.toNat % 4 = 0 ∧ ∃ raw, s.mem.load32 s.pc = some raw ∧ decode raw = .instr i := by
  unfold fetchDecode fetch at h
  by_cases ha : s.pc.toNat % 4 = 0
  · simp only [ha, ne_eq, not_true_eq_false, if_false] at h
    cases hl : s.mem.load32 s.pc with
    | none => simp [hl] at h
    | some raw =>
      simp only [hl] at h
      cases hd : decode raw with
      | instr j => simp only [hd] at h; cases h; exact ⟨ha, raw, rfl, hd⟩
      | illegalEncoding w => simp [hd] at h
  · simp [ha] at h

/-- A running core of the default configuration: the step is the fetch and decode, then the instruction or the fault. -/
theorem step_of_canStep {s : State} (h : CanStep s) :
    step s = match fetchDecode s with
      | .inr r => .next (raiseFetchFault r s)
      | .inl i => exec i s := by
  cases hf : fetchDecode s <;> simp [step, h.2, h.1, stoppedOutcome, hf]

/-- The fetch and decode at an aligned pc, by what the memory answers. -/
theorem fetchDecode_of_load {s : State} (ha : s.pc.toNat % 4 = 0) :
    fetchDecode s = match s.mem.load32 s.pc with
      | none => .inr (.outOfBoundsAccess .fetch s.pc s.pc)
      | some raw =>
        match decode raw with
        | .instr i => .inl i
        | .illegalEncoding w => .inr (.illegalEncoding s.pc w) := by
  unfold fetchDecode fetch
  rw [if_neg (by omega)]
  cases s.mem.load32 s.pc with
  | none => rfl
  | some raw => cases h : decode raw <;> simp [h]

/-- The fetch at a misaligned pc. -/
theorem fetchDecode_of_misaligned {s : State} (ha : s.pc.toNat % 4 ≠ 0) :
    fetchDecode s = .inr (.misalignedAccess .fetch s.pc s.pc) := by
  simp [fetchDecode, fetch, ha]

/-- A step that answers a next state ran on a running core of the default configuration, and either executed the decoded
instruction at an aligned pc or raised a fetch or decode fault. -/
theorem step_cases {s t : State} (h : step s = .next t) :
    s.config = .rv32iOnly ∧ s.status = .running ∧
      ((∃ i raw, s.pc.toNat % 4 = 0 ∧ s.mem.load32 s.pc = some raw ∧ decode raw = .instr i ∧ exec i s = .next t) ∨
       ∃ r, FetchFault s r ∧ t = raiseFetchFault r s) := by
  unfold step at h
  cases hc : s.config with
  | nonDefault => simp [hc] at h
  | rv32iOnly =>
    simp only [hc] at h
    cases hs : s.status with
    | halted c ipc => simp [hs, stoppedOutcome] at h
    | faulted r => simp [hs, stoppedOutcome] at h
    | running =>
      simp only [hs, stoppedOutcome] at h
      refine ⟨rfl, rfl, ?_⟩
      cases hf : fetchDecode s with
      | inl i =>
        simp only [hf] at h
        obtain ⟨ha, raw, hl, hd⟩ := fetchDecode_instr hf
        exact .inl ⟨i, raw, ha, hl, hd, h⟩
      | inr r => simp only [hf] at h; cases h; exact .inr ⟨r, fetchDecode_fault hf, rfl⟩

end Sys2Proof.Machine
end

