-- ==== Sys2Proof/Laws/PerInstr.lean ====
section
/-! SUPPORT. Per-instruction lemmas about instructions as terms: an instruction's encoding lies in its own row of the decode
table (30_encoding.md R73, R75 to R80). -/

namespace Sys2Proof.Laws.EncodingRow

/-- The encoding of `i` matches some row that has `i`'s mnemonic. -/
def Statement (i : Instr) : Prop := ∃ row ∈ decodeTable, row.mnemonic = i.mnemonic ∧ row.matchesWord (encode i) = true

theorem rRow {w p : Word} (hp : p &&& 0xFE00707F#32 = p) (h0 : opcode w = opcode p) (h3 : funct3 w = funct3 p)
    (h7 : funct7 w = funct7 p) (name : String) : (⟨name, 0xFE00707F#32, p⟩ : DecodeRow).matchesWord w = true := by
  simpa [DecodeRow.matchesWord] using (maskFE00707F_iff hp).mpr ⟨h0, h3, h7⟩

theorem iRow {w p : Word} (hp : p &&& 0x707F#32 = p) (h0 : opcode w = opcode p) (h3 : funct3 w = funct3 p)
    (name : String) : (⟨name, 0x0000707F#32, p⟩ : DecodeRow).matchesWord w = true := by
  simpa [DecodeRow.matchesWord] using (mask707F_iff hp).mpr ⟨h0, h3⟩

theorem jRow {w p : Word} (hp : p &&& 0x7F#32 = p) (h0 : opcode w = opcode p) (name : String) :
    (⟨name, 0x0000007F#32, p⟩ : DecodeRow).matchesWord w = true := by
  simpa [DecodeRow.matchesWord] using (mask7F_iff hp).mpr h0

theorem add (rd rs1 rs2 : RegIdx) : Statement (.add rd rs1 rs2) :=
  ⟨⟨"ADD", 0xFE00707F, 0x00000033⟩, by decide, rfl, rRow rfl (by simp [encode]; rfl) (by simp [encode]; rfl) (by simp [encode]; rfl) _⟩
theorem sub (rd rs1 rs2 : RegIdx) : Statement (.sub rd rs1 rs2) :=
  ⟨⟨"SUB", 0xFE00707F, 0x40000033⟩, by decide, rfl, rRow rfl (by simp [encode]; rfl) (by simp [encode]; rfl) (by simp [encode]; rfl) _⟩
theorem and (rd rs1 rs2 : RegIdx) : Statement (.and rd rs1 rs2) :=
  ⟨⟨"AND", 0xFE00707F, 0x00007033⟩, by decide, rfl, rRow rfl (by simp [encode]; rfl) (by simp [encode]; rfl) (by simp [encode]; rfl) _⟩
theorem or (rd rs1 rs2 : RegIdx) : Statement (.or rd rs1 rs2) :=
  ⟨⟨"OR", 0xFE00707F, 0x00006033⟩, by decide, rfl, rRow rfl (by simp [encode]; rfl) (by simp [encode]; rfl) (by simp [encode]; rfl) _⟩
theorem xor (rd rs1 rs2 : RegIdx) : Statement (.xor rd rs1 rs2) :=
  ⟨⟨"XOR", 0xFE00707F, 0x00004033⟩, by decide, rfl, rRow rfl (by simp [encode]; rfl) (by simp [encode]; rfl) (by simp [encode]; rfl) _⟩
theorem slt (rd rs1 rs2 : RegIdx) : Statement (.slt rd rs1 rs2) :=
  ⟨⟨"SLT", 0xFE00707F, 0x00002033⟩, by decide, rfl, rRow rfl (by simp [encode]; rfl) (by simp [encode]; rfl) (by simp [encode]; rfl) _⟩
theorem sltu (rd rs1 rs2 : RegIdx) : Statement (.sltu rd rs1 rs2) :=
  ⟨⟨"SLTU", 0xFE00707F, 0x00003033⟩, by decide, rfl, rRow rfl (by simp [encode]; rfl) (by simp [encode]; rfl) (by simp [encode]; rfl) _⟩
theorem sll (rd rs1 rs2 : RegIdx) : Statement (.sll rd rs1 rs2) :=
  ⟨⟨"SLL", 0xFE00707F, 0x00001033⟩, by decide, rfl, rRow rfl (by simp [encode]; rfl) (by simp [encode]; rfl) (by simp [encode]; rfl) _⟩
theorem srl (rd rs1 rs2 : RegIdx) : Statement (.srl rd rs1 rs2) :=
  ⟨⟨"SRL", 0xFE00707F, 0x00005033⟩, by decide, rfl, rRow rfl (by simp [encode]; rfl) (by simp [encode]; rfl) (by simp [encode]; rfl) _⟩
theorem sra (rd rs1 rs2 : RegIdx) : Statement (.sra rd rs1 rs2) :=
  ⟨⟨"SRA", 0xFE00707F, 0x40005033⟩, by decide, rfl, rRow rfl (by simp [encode]; rfl) (by simp [encode]; rfl) (by simp [encode]; rfl) _⟩
theorem slli (rd rs1 : RegIdx) (shamt : Shamt) : Statement (.slli rd rs1 shamt) :=
  ⟨⟨"SLLI", 0xFE00707F, 0x00001013⟩, by decide, rfl, rRow rfl (by simp [encode]; rfl) (by simp [encode]; rfl) (by simp [encode]; rfl) _⟩
theorem srli (rd rs1 : RegIdx) (shamt : Shamt) : Statement (.srli rd rs1 shamt) :=
  ⟨⟨"SRLI", 0xFE00707F, 0x00005013⟩, by decide, rfl, rRow rfl (by simp [encode]; rfl) (by simp [encode]; rfl) (by simp [encode]; rfl) _⟩
theorem srai (rd rs1 : RegIdx) (shamt : Shamt) : Statement (.srai rd rs1 shamt) :=
  ⟨⟨"SRAI", 0xFE00707F, 0x40005013⟩, by decide, rfl, rRow rfl (by simp [encode]; rfl) (by simp [encode]; rfl) (by simp [encode]; rfl) _⟩
theorem addi (rd rs1 : RegIdx) (imm : Word) : Statement (.addi rd rs1 imm) :=
  ⟨⟨"ADDI", 0x0000707F, 0x00000013⟩, by decide, rfl, iRow rfl (by simp [encode]; rfl) (by simp [encode]; rfl) _⟩
theorem andi (rd rs1 : RegIdx) (imm : Word) : Statement (.andi rd rs1 imm) :=
  ⟨⟨"ANDI", 0x0000707F, 0x00007013⟩, by decide, rfl, iRow rfl (by simp [encode]; rfl) (by simp [encode]; rfl) _⟩
theorem ori (rd rs1 : RegIdx) (imm : Word) : Statement (.ori rd rs1 imm) :=
  ⟨⟨"ORI", 0x0000707F, 0x00006013⟩, by decide, rfl, iRow rfl (by simp [encode]; rfl) (by simp [encode]; rfl) _⟩
theorem xori (rd rs1 : RegIdx) (imm : Word) : Statement (.xori rd rs1 imm) :=
  ⟨⟨"XORI", 0x0000707F, 0x00004013⟩, by decide, rfl, iRow rfl (by simp [encode]; rfl) (by simp [encode]; rfl) _⟩
theorem slti (rd rs1 : RegIdx) (imm : Word) : Statement (.slti rd rs1 imm) :=
  ⟨⟨"SLTI", 0x0000707F, 0x00002013⟩, by decide, rfl, iRow rfl (by simp [encode]; rfl) (by simp [encode]; rfl) _⟩
theorem sltiu (rd rs1 : RegIdx) (imm : Word) : Statement (.sltiu rd rs1 imm) :=
  ⟨⟨"SLTIU", 0x0000707F, 0x00003013⟩, by decide, rfl, iRow rfl (by simp [encode]; rfl) (by simp [encode]; rfl) _⟩
theorem lb (rd rs1 : RegIdx) (imm : Word) : Statement (.lb rd rs1 imm) :=
  ⟨⟨"LB", 0x0000707F, 0x00000003⟩, by decide, rfl, iRow rfl (by simp [encode]; rfl) (by simp [encode]; rfl) _⟩
theorem lh (rd rs1 : RegIdx) (imm : Word) : Statement (.lh rd rs1 imm) :=
  ⟨⟨"LH", 0x0000707F, 0x00001003⟩, by decide, rfl, iRow rfl (by simp [encode]; rfl) (by simp [encode]; rfl) _⟩
theorem lw (rd rs1 : RegIdx) (imm : Word) : Statement (.lw rd rs1 imm) :=
  ⟨⟨"LW", 0x0000707F, 0x00002003⟩, by decide, rfl, iRow rfl (by simp [encode]; rfl) (by simp [encode]; rfl) _⟩
theorem lbu (rd rs1 : RegIdx) (imm : Word) : Statement (.lbu rd rs1 imm) :=
  ⟨⟨"LBU", 0x0000707F, 0x00004003⟩, by decide, rfl, iRow rfl (by simp [encode]; rfl) (by simp [encode]; rfl) _⟩
theorem lhu (rd rs1 : RegIdx) (imm : Word) : Statement (.lhu rd rs1 imm) :=
  ⟨⟨"LHU", 0x0000707F, 0x00005003⟩, by decide, rfl, iRow rfl (by simp [encode]; rfl) (by simp [encode]; rfl) _⟩
theorem jalr (rd rs1 : RegIdx) (imm : Word) : Statement (.jalr rd rs1 imm) :=
  ⟨⟨"JALR", 0x0000707F, 0x00000067⟩, by decide, rfl, iRow rfl (by simp [encode]; rfl) (by simp [encode]; rfl) _⟩
theorem sb (rs1 rs2 : RegIdx) (imm : Word) : Statement (.sb rs1 rs2 imm) :=
  ⟨⟨"SB", 0x0000707F, 0x00000023⟩, by decide, rfl, iRow rfl (by simp [encode]; rfl) (by simp [encode]; rfl) _⟩
theorem sh (rs1 rs2 : RegIdx) (imm : Word) : Statement (.sh rs1 rs2 imm) :=
  ⟨⟨"SH", 0x0000707F, 0x00001023⟩, by decide, rfl, iRow rfl (by simp [encode]; rfl) (by simp [encode]; rfl) _⟩
theorem sw (rs1 rs2 : RegIdx) (imm : Word) : Statement (.sw rs1 rs2 imm) :=
  ⟨⟨"SW", 0x0000707F, 0x00002023⟩, by decide, rfl, iRow rfl (by simp [encode]; rfl) (by simp [encode]; rfl) _⟩
theorem beq (rs1 rs2 : RegIdx) (imm : Word) : Statement (.beq rs1 rs2 imm) :=
  ⟨⟨"BEQ", 0x0000707F, 0x00000063⟩, by decide, rfl, iRow rfl (by simp [encode]; rfl) (by simp [encode]; rfl) _⟩
theorem bne (rs1 rs2 : RegIdx) (imm : Word) : Statement (.bne rs1 rs2 imm) :=
  ⟨⟨"BNE", 0x0000707F, 0x00001063⟩, by decide, rfl, iRow rfl (by simp [encode]; rfl) (by simp [encode]; rfl) _⟩
theorem blt (rs1 rs2 : RegIdx) (imm : Word) : Statement (.blt rs1 rs2 imm) :=
  ⟨⟨"BLT", 0x0000707F, 0x00004063⟩, by decide, rfl, iRow rfl (by simp [encode]; rfl) (by simp [encode]; rfl) _⟩
theorem bge (rs1 rs2 : RegIdx) (imm : Word) : Statement (.bge rs1 rs2 imm) :=
  ⟨⟨"BGE", 0x0000707F, 0x00005063⟩, by decide, rfl, iRow rfl (by simp [encode]; rfl) (by simp [encode]; rfl) _⟩
theorem bltu (rs1 rs2 : RegIdx) (imm : Word) : Statement (.bltu rs1 rs2 imm) :=
  ⟨⟨"BLTU", 0x0000707F, 0x00006063⟩, by decide, rfl, iRow rfl (by simp [encode]; rfl) (by simp [encode]; rfl) _⟩
theorem bgeu (rs1 rs2 : RegIdx) (imm : Word) : Statement (.bgeu rs1 rs2 imm) :=
  ⟨⟨"BGEU", 0x0000707F, 0x00007063⟩, by decide, rfl, iRow rfl (by simp [encode]; rfl) (by simp [encode]; rfl) _⟩
theorem jal (rd : RegIdx) (imm : Word) : Statement (.jal rd imm) :=
  ⟨⟨"JAL", 0x0000007F, 0x0000006F⟩, by decide, rfl, jRow rfl (by simp [encode]; rfl) _⟩
theorem ecall : Statement .ecall := ⟨⟨"ECALL", 0xFFFFFFFF, 0x00000073⟩, by decide, rfl, rfl⟩
theorem ebreak : Statement .ebreak := ⟨⟨"EBREAK", 0xFFFFFFFF, 0x00100073⟩, by decide, rfl, rfl⟩

end Sys2Proof.Laws.EncodingRow
end

