-- ==== Sys2Proof/Tests/Slice0.lean ====
section
/-! SUPPORT. Tests: ill-formed instructions refused, the words of the spec decoded, single steps with the results of
95_test_vectors.md (a test's docstring names its vector), and, for each statement with hypotheses, a witness that meets
them. -/

namespace Sys2Proof.Tests

open Sys2Proof.Machine

/-! ## WellFormed refuses -/

/-- imm_I and imm_S end at -2048 and 2047 (30_encoding.md R63, R64). -/
theorem test_illformed_imm12 :
    (Instr.addi 1 2 2048).wellFormed = false ∧ (Instr.slti 1 2 (-2049)).wellFormed = false ∧
    (Instr.lw 1 2 2048).wellFormed = false ∧ (Instr.jalr 1 2 (-2049)).wellFormed = false ∧
    (Instr.sb 1 2 2048).wellFormed = false ∧ (Instr.sw 1 2 (-2049)).wellFormed = false := by decide

/-- imm_B is even and ends at -4096 and 4094 (R65). -/
theorem test_illformed_imm_b :
    (Instr.beq 1 2 1).wellFormed = false ∧ (Instr.bne 1 2 4096).wellFormed = false ∧
    (Instr.bgeu 1 2 (-4098)).wellFormed = false := by decide

/-- imm_J is even and ends at -1048576 and 1048574 (R67). -/
theorem test_illformed_imm_j :
    (Instr.jal 1 1).wellFormed = false ∧ (Instr.jal 1 1048576).wellFormed = false ∧
    (Instr.jal 1 (-1048578)).wellFormed = false := by decide

/-! ## Words of the spec, decoded -/

/-- OP (30_encoding.md R75; words of V1 to V16). -/
theorem test_decode_op :
    decode 0b0000000_00010_00001_000_00011_0110011 = .instr (.add 3 1 2) ∧
    decode 0b0100000_00010_00001_000_00011_0110011 = .instr (.sub 3 1 2) ∧
    decode 0b0000000_00010_00001_111_00011_0110011 = .instr (.and 3 1 2) ∧
    decode 0b0000000_00010_00001_110_00011_0110011 = .instr (.or 3 1 2) ∧
    decode 0b0000000_00010_00001_100_00011_0110011 = .instr (.xor 3 1 2) ∧
    decode 0b0000000_00010_00001_010_00011_0110011 = .instr (.slt 3 1 2) ∧
    decode 0b0000000_00010_00001_011_00011_0110011 = .instr (.sltu 3 1 2) ∧
    decode 0b0000000_00010_00001_001_00011_0110011 = .instr (.sll 3 1 2) ∧
    decode 0b0000000_00010_00001_101_00011_0110011 = .instr (.srl 3 1 2) ∧
    decode 0b0100000_00010_00001_101_00011_0110011 = .instr (.sra 3 1 2) := by decide

/-- OP-IMM (R76; words of V19 to V34), the immediates as I1 to I3 give them. -/
theorem test_decode_op_imm :
    decode 0b100000000000_00001_000_00011_0010011 = .instr (.addi 3 1 0xFFFFF800) ∧
    decode 0b100000000000_00001_111_00011_0010011 = .instr (.andi 3 1 0xFFFFF800) ∧
    decode 0b011111111111_00001_110_00011_0010011 = .instr (.ori 3 1 0x7FF) ∧
    decode 0b111111111111_00001_100_00011_0010011 = .instr (.xori 3 1 0xFFFFFFFF) ∧
    decode 0b111111111111_00001_010_00011_0010011 = .instr (.slti 3 1 0xFFFFFFFF) ∧
    decode 0b000000000001_00001_011_00011_0010011 = .instr (.sltiu 3 1 1) ∧
    decode 0b0000000_11111_00001_001_00011_0010011 = .instr (.slli 3 1 31) ∧
    decode 0b0000000_00100_00001_101_00011_0010011 = .instr (.srli 3 1 4) ∧
    decode 0b0100000_00100_00001_101_00011_0010011 = .instr (.srai 3 1 4) := by decide

/-- LOAD (R77; words of L1 to L18). -/
theorem test_decode_load :
    decode 0b000000000001_00001_000_00011_0000011 = .instr (.lb 3 1 1) ∧
    decode 0b000000000010_00001_001_00011_0000011 = .instr (.lh 3 1 2) ∧
    decode 0b111111111100_00001_010_00011_0000011 = .instr (.lw 3 1 0xFFFFFFFC) ∧
    decode 0b000000000001_00001_100_00011_0000011 = .instr (.lbu 3 1 1) ∧
    decode 0b000000000011_00001_101_00011_0000011 = .instr (.lhu 3 1 3) := by decide

/-- STORE (R78; words of L23 to L29, and I5, I6). -/
theorem test_decode_store :
    decode 0b0000000_00010_00001_000_00001_0100011 = .instr (.sb 1 2 1) ∧
    decode 0b0000000_00010_00001_001_00011_0100011 = .instr (.sh 1 2 3) ∧
    decode 0b1111111_00010_00001_010_11100_0100011 = .instr (.sw 1 2 0xFFFFFFFC) ∧
    decode 0b0111111_00000_00000_010_11111_0100011 = .instr (.sw 0 0 0x7FF) ∧
    decode 0b1000000_00000_00000_010_00000_0100011 = .instr (.sw 0 0 0xFFFFF800) := by decide

/-- BRANCH (R79; words of C12 to C27, and I7 to I10). -/
theorem test_decode_branch :
    decode 0b1_111111_00011_00010_000_1100_1_1100011 = .instr (.beq 2 3 0xFFFFFFF8) ∧
    decode 0b0_000000_00011_00010_001_1000_0_1100011 = .instr (.bne 2 3 16) ∧
    decode 0b1_111111_00011_00010_100_1100_1_1100011 = .instr (.blt 2 3 0xFFFFFFF8) ∧
    decode 0b0_000000_00011_00010_101_1000_0_1100011 = .instr (.bge 2 3 16) ∧
    decode 0b1_111111_00011_00010_110_1100_1_1100011 = .instr (.bltu 2 3 0xFFFFFFF8) ∧
    decode 0b0_000000_00011_00010_111_1000_0_1100011 = .instr (.bgeu 2 3 16) ∧
    decode 0b1_000000_00000_00000_000_0000_0_1100011 = .instr (.beq 0 0 0xFFFFF000) ∧
    decode 0b0_111111_00000_00000_000_1111_1_1100011 = .instr (.beq 0 0 0xFFE) ∧
    decode 0b0_000000_00000_00000_000_0000_1_1100011 = .instr (.beq 0 0 0x800) := by decide

/-- JAL and JALR (R79; words of C1, C6, C8, and I11 to I14). -/
theorem test_decode_jump :
    decode 0b0_0000000100_0_00000000_00001_1101111 = .instr (.jal 1 8) ∧
    decode 0b1_0000000000_0_00000000_00000_1101111 = .instr (.jal 0 0xFFF00000) ∧
    decode 0b0_1111111111_1_11111111_00000_1101111 = .instr (.jal 0 0xFFFFE) ∧
    decode 0b0_0000000000_1_00000000_00000_1101111 = .instr (.jal 0 0x800) ∧
    decode 0b1_1111111111_1_11111111_00000_1101111 = .instr (.jal 0 0xFFFFFFFE) ∧
    decode 0b000000000100_00010_000_00001_1100111 = .instr (.jalr 1 2 4) ∧
    decode 0b111111111111_00010_000_00001_1100111 = .instr (.jalr 1 2 0xFFFFFFFF) := by decide

/-- SYSTEM (R80; Y1, Y2). -/
theorem test_decode_system :
    decode 0b000000000000_00000_000_00000_1110011 = .instr .ecall ∧
    decode 0b000000000001_00000_000_00000_1110011 = .instr .ebreak := by decide

/-- D1 to D15 of 95_test_vectors.md: words that are no instruction. -/
theorem test_decode_illegal :
    decode 0x00000000 = .illegalEncoding 0x00000000 ∧
    decode 0xFFFFFFFF = .illegalEncoding 0xFFFFFFFF ∧
    decode 0x02000033 = .illegalEncoding 0x02000033 ∧
    decode 0x02001013 = .illegalEncoding 0x02001013 ∧
    decode 0x40001013 = .illegalEncoding 0x40001013 ∧
    decode 0x40006033 = .illegalEncoding 0x40006033 ∧
    decode 0x12345037 = .illegalEncoding 0x12345037 ∧
    decode 0x00000017 = .illegalEncoding 0x00000017 ∧
    decode 0x0FF0000F = .illegalEncoding 0x0FF0000F ∧
    decode 0x00000173 = .illegalEncoding 0x00000173 ∧
    decode 0x30200073 = .illegalEncoding 0x30200073 ∧
    decode 0x00001067 = .illegalEncoding 0x00001067 ∧
    decode 0x00003003 = .illegalEncoding 0x00003003 ∧
    decode 0x00003023 = .illegalEncoding 0x00003023 ∧
    decode 0x00002063 = .illegalEncoding 0x00002063 := by decide

/-- I15: the U immediate is a field function; its word is no instruction (C1). -/
theorem test_imm_u : immU 0x12345037 = 0x12345000#32 := by decide

/-! ## Single steps -/

/-- A core over a reference memory at 0, of `size` bytes, with words loaded by the host. -/
def coreWith (pc : Word) (size : Nat) (xs : List (RegIdx × Word)) (words : List (Nat × Word)) : State :=
  State.construct (some pc) xs
    (words.foldl (fun m p => m.hostLoad p.1 [byteOf p.2 0, byteOf p.2 1, byteOf p.2 2, byteOf p.2 3])
      (Memory.reference 0 size))

/-- The start of sections 3 and 4: the instruction at 0, 0x200 bytes, 0x8001FF80 at 0x100. -/
def bench (w : Word) (xs : List (RegIdx × Word)) : State := coreWith 0 0x200 xs [(0, w), (0x100, 0x8001FF80)]

/-- The start of section 5: the instruction at `pc`, a larger memory. -/
def far (pc w : Word) (xs : List (RegIdx × Word)) : State := coreWith pc 0x4000 xs [(pc.toNat, w)]

/-- After one step: a register, the pc, the status. -/
def result (s : State) (rd : RegIdx) : Option (Word × Word × Status) :=
  match step s with
  | .next t => some (t.x rd, t.pc, t.status)
  | _ => none

/-- After one step: the word at an address. -/
def storedWord (s : State) (a : Nat) : Option Nat :=
  match step s with
  | .next t => some (wordAt t.mem a)
  | _ => none

/-- After one step: the status, and whether registers and memory are as before. -/
def stop (s : State) : Option (Status × Bool) :=
  match step s with
  | .next t => some (t.status, decide (t.regs = s.regs ∧ t.mem = s.mem))
  | _ => none

/-- V1. -/
theorem test_add_wraps :
    result (bench 0x002081B3 [(1, 0xFFFFFFFF), (2, 0x1)]) 3 = some (0x00000000, 4, .running) := by decide

/-- V3. -/
theorem test_sub_borrows :
    result (bench 0x402081B3 [(1, 0x0), (2, 0x1)]) 3 = some (0xFFFFFFFF, 4, .running) := by decide

/-- V5. -/
theorem test_and_bits :
    result (bench 0x0020F1B3 [(1, 0xF0F0F0F0), (2, 0xFF00FF0)]) 3 = some (0x00F000F0, 4, .running) := by decide

/-- V6. -/
theorem test_or_bits :
    result (bench 0x0020E1B3 [(1, 0xF0F0F0F0), (2, 0xFF00FF0)]) 3 = some (0xFFF0FFF0, 4, .running) := by decide

/-- V7. -/
theorem test_xor_bits :
    result (bench 0x0020C1B3 [(1, 0xF0F0F0F0), (2, 0xFF00FF0)]) 3 = some (0xFF00FF00, 4, .running) := by decide

/-- V8. -/
theorem test_slt_signed :
    result (bench 0x0020A1B3 [(1, 0x80000000), (2, 0x7FFFFFFF)]) 3 = some (0x00000001, 4, .running) := by decide

/-- V9. -/
theorem test_slt_equal :
    result (bench 0x0020A1B3 [(1, 0x5), (2, 0x5)]) 3 = some (0x00000000, 4, .running) := by decide

/-- V10. -/
theorem test_sltu_unsigned :
    result (bench 0x0020B1B3 [(1, 0x80000000), (2, 0x7FFFFFFF)]) 3 = some (0x00000000, 4, .running) := by decide

/-- V11. -/
theorem test_sltu_less :
    result (bench 0x0020B1B3 [(1, 0x0), (2, 0x1)]) 3 = some (0x00000001, 4, .running) := by decide

/-- V12. -/
theorem test_sll_masks_amount :
    result (bench 0x002091B3 [(1, 0x1), (2, 0x25)]) 3 = some (0x00000020, 4, .running) := by decide

/-- V14. -/
theorem test_srl_zero_fills :
    result (bench 0x0020D1B3 [(1, 0x80000000), (2, 0x1F)]) 3 = some (0x00000001, 4, .running) := by decide

/-- V15. -/
theorem test_srl_by_32 :
    result (bench 0x0020D1B3 [(1, 0x80000000), (2, 0x20)]) 3 = some (0x80000000, 4, .running) := by decide

/-- V16. -/
theorem test_sra_sign_fills :
    result (bench 0x4020D1B3 [(1, 0x80000000), (2, 0x4)]) 3 = some (0xF8000000, 4, .running) := by decide

/-- V18. -/
theorem test_sra_positive :
    result (bench 0x4020D1B3 [(1, 0x7FFFFFFF), (2, 0x1F)]) 3 = some (0x00000000, 4, .running) := by decide

/-- V21. -/
theorem test_addi_minimum :
    result (bench 0x80008193 [(1, 0x0)]) 3 = some (0xFFFFF800, 4, .running) := by decide

/-- V22. -/
theorem test_andi_sign_extends :
    result (bench 0x8000F193 [(1, 0x12345FFF)]) 3 = some (0x12345800, 4, .running) := by decide

/-- V23. -/
theorem test_ori_positive :
    result (bench 0x7FF0E193 [(1, 0x12340000)]) 3 = some (0x123407FF, 4, .running) := by decide

/-- V24. -/
theorem test_xori_inverts :
    result (bench 0xFFF0C193 [(1, 0xFFFF)]) 3 = some (0xFFFF0000, 4, .running) := by decide

/-- V26. -/
theorem test_slti_signed :
    result (bench 0x0000A193 [(1, 0x80000000)]) 3 = some (0x00000001, 4, .running) := by decide

/-- V27. -/
theorem test_sltiu_sign_extends_first :
    result (bench 0xFFF0B193 [(1, 0xFFFFFFFE)]) 3 = some (0x00000001, 4, .running) := by decide

/-- V30. -/
theorem test_slli_drops_high_bits :
    result (bench 0x01F09193 [(1, 0x3)]) 3 = some (0x80000000, 4, .running) := by decide

/-- V32. -/
theorem test_srli_zero_fills :
    result (bench 0x0040D193 [(1, 0x80000000)]) 3 = some (0x08000000, 4, .running) := by decide

/-- V35. -/
theorem test_srai_sign_fills :
    result (bench 0x41F0D193 [(1, 0x80000000)]) 3 = some (0xFFFFFFFF, 4, .running) := by decide

/-- V36: a result for x0 is discarded; V37: the destination is also both sources. -/
theorem test_add_to_x0_and_in_place :
    result (bench 0x00208033 [(1, 5), (2, 6)]) 0 = some (0, 4, .running) ∧
    result (bench 0x001080B3 [(1, 0x40000000)]) 1 = some (0x80000000, 4, .running) := by decide

/-- L1. -/
theorem test_lb_sign_extends :
    result (bench 0x00008183 [(1, 0x100)]) 3 = some (0xFFFFFF80, 4, .running) := by decide

/-- L5. -/
theorem test_lh_high_half :
    result (bench 0x00209183 [(1, 0x100)]) 3 = some (0xFFFF8001, 4, .running) := by decide

/-- L7; L11; L20: the base is also the destination. -/
theorem test_lw_values :
    result (bench 0x0000A183 [(1, 0x100)]) 3 = some (0x8001FF80, 4, .running) ∧
    result (bench 0x1FC0A183 [(1, 0xFFFFFF04)]) 3 = some (0x8001FF80, 4, .running) ∧
    result (bench 0x0000A083 [(1, 0x100)]) 1 = some (0x8001FF80, 4, .running) := by decide

/-- L15. -/
theorem test_lbu_zero_extends :
    result (bench 0x0010C183 [(1, 0x100)]) 3 = some (0x000000FF, 4, .running) := by decide

/-- L17. -/
theorem test_lhu_zero_extends :
    result (bench 0x0000D183 [(1, 0x100)]) 3 = some (0x0000FF80, 4, .running) := by decide

/-- L23. -/
theorem test_sb_low_byte :
    storedWord (bench 0x002080A3 [(1, 0x100), (2, 0x12345678)]) 0x100 = some 0x80017880 := by decide

/-- L25. -/
theorem test_sh_low_half :
    storedWord (bench 0x00209123 [(1, 0x100), (2, 0x12345678)]) 0x100 = some 0x5678FF80 := by decide

/-- L27; L29. -/
theorem test_sw_values :
    storedWord (bench 0x0020A023 [(1, 0x100), (2, 0x12345678)]) 0x100 = some 0x12345678 ∧
    storedWord (bench 0xFE20AE23 [(1, 0x104), (2, 0xCAFEBABE)]) 0x100 = some 0xCAFEBABE := by decide

/-- L6. -/
theorem test_lh_misaligned :
    stop (bench 0x00109183 [(1, 0x100)]) = some (.faulted (.misalignedAccess .load 0 0x101), true) := by decide

/-- L10; L12; L22. -/
theorem test_lw_faults :
    stop (bench 0x0000A183 [(1, 0x200)]) = some (.faulted (.outOfBoundsAccess .load 0 0x200), true) ∧
    stop (bench 0x0000A183 [(1, 0x1FE)]) = some (.faulted (.misalignedAccess .load 0 0x1FE), true) ∧
    stop (bench 0x0000A003 [(1, 0x300)]) = some (.faulted (.outOfBoundsAccess .load 0 0x300), true) := by decide

/-- L18. -/
theorem test_lhu_misaligned :
    stop (bench 0x0030D183 [(1, 0x100)]) = some (.faulted (.misalignedAccess .load 0 0x103), true) := by decide

/-- L19. -/
theorem test_lb_out_of_bounds :
    stop (bench 0x00008183 [(1, 0xFFFFFFFF)]) =
      some (.faulted (.outOfBoundsAccess .load 0 0xFFFFFFFF), true) := by decide

/-- L24. -/
theorem test_sb_out_of_bounds :
    stop (bench 0x00208023 [(1, 0x200), (2, 0x12345678)]) =
      some (.faulted (.outOfBoundsAccess .store 0 0x200), true) := by decide

/-- L26. -/
theorem test_sh_misaligned :
    stop (bench 0x002091A3 [(1, 0x100), (2, 0x12345678)]) =
      some (.faulted (.misalignedAccess .store 0 0x103), true) := by decide

/-- L28. -/
theorem test_sw_misaligned :
    stop (bench 0x0020A123 [(1, 0x100), (2, 0x12345678)]) =
      some (.faulted (.misalignedAccess .store 0 0x102), true) := by decide

/-- C1. -/
theorem test_jal_links :
    result (far 0x1000 0x008000EF []) 1 = some (0x1004, 0x1008, .running) := by decide

/-- C2. -/
theorem test_jal_x0_backward :
    result (far 0x1000 0xFFDFF06F []) 0 = some (0x0, 0xFFC, .running) := by decide

/-- C6. -/
theorem test_jalr_clears_bit_0 :
    result (far 0x1000 0x004100E7 [(2, 0x2001)]) 1 = some (0x1004, 0x2004, .running) := by decide

/-- C9. -/
theorem test_jalr_reads_before_link :
    result (far 0x1000 0x000080E7 [(1, 0x3000)]) 1 = some (0x1004, 0x3000, .running) := by decide

/-- C11. -/
theorem test_beq_self_loop :
    result (far 0x1000 0x00310063 [(2, 0x9), (3, 0x9)]) 2 = some (0x9, 0x1000, .running) := by decide

/-- C13; C32: a backward branch at 0 wraps. -/
theorem test_beq_not_taken_and_wraps :
    result (far 0x1000 0xFE310CE3 [(2, 0x5), (3, 0x6)]) 2 = some (0x5, 0x1004, .running) ∧
    result (far 0 0xFE000CE3 []) 0 = some (0, 0xFFFFFFF8, .running) := by decide

/-- C14. -/
theorem test_bne_taken :
    result (far 0x1000 0x00311863 [(2, 0x5), (3, 0x6)]) 2 = some (0x5, 0x1010, .running) := by decide

/-- C15. -/
theorem test_bne_not_taken :
    result (far 0x1000 0xFE311CE3 [(2, 0x5), (3, 0x5)]) 2 = some (0x5, 0x1004, .running) := by decide

/-- C16. -/
theorem test_blt_signed :
    result (far 0x1000 0xFE314CE3 [(2, 0xFFFFFFFF), (3, 0x1)]) 2 = some (0xFFFFFFFF, 0xFF8, .running) := by decide

/-- C18. -/
theorem test_blt_equal :
    result (far 0x1000 0x00314863 [(2, 0x7), (3, 0x7)]) 2 = some (0x7, 0x1004, .running) := by decide

/-- C19. -/
theorem test_bge_equal :
    result (far 0x1000 0x00315863 [(2, 0x7), (3, 0x7)]) 2 = some (0x7, 0x1010, .running) := by decide

/-- C21. -/
theorem test_bge_signed :
    result (far 0x1000 0xFE315CE3 [(2, 0x0), (3, 0x80000000)]) 2 = some (0x0, 0xFF8, .running) := by decide

/-- C22. -/
theorem test_bltu_unsigned :
    result (far 0x1000 0x00316863 [(2, 0xFFFFFFFF), (3, 0x1)]) 2 = some (0xFFFFFFFF, 0x1004, .running) := by decide

/-- C23. -/
theorem test_bltu_less :
    result (far 0x1000 0xFE316CE3 [(2, 0x1), (3, 0xFFFFFFFF)]) 2 = some (0x1, 0xFF8, .running) := by decide

/-- C25. -/
theorem test_bgeu_unsigned :
    result (far 0x1000 0x00317863 [(2, 0x80000000), (3, 0x0)]) 2 = some (0x80000000, 0x1010, .running) := by decide

/-- C26. -/
theorem test_bgeu_less :
    result (far 0x1000 0xFE317CE3 [(2, 0x0), (3, 0xFFFFFFFF)]) 2 = some (0x0, 0x1004, .running) := by decide

/-- Y1: ECALL halts with its address, registers and memory as before. -/
theorem test_ecall_halts : stop (far 0x40 0x00000073 [(17, 93)]) = some (.halted .ecall 0x40, true) := by decide

/-- Y2. -/
theorem test_ebreak_halts : stop (far 0x1000 0x00100073 []) = some (.halted .ebreak 0x1000, true) := by decide

/-- Y3: a SYSTEM word that is neither; R6 and R7 of section 7: a misaligned pc, a pc outside the memory. -/
theorem test_fetch_faults :
    stop (far 0 0x00000173 []) = some (.faulted (.illegalEncoding 0 0x173), true) ∧
    stop (coreWith 0x1001 0x1100 [] []) = some (.faulted (.misalignedAccess .fetch 0x1001 0x1001), true) ∧
    stop (coreWith 0x400 0x200 [] []) = some (.faulted (.outOfBoundsAccess .fetch 0x400 0x400), true) := by decide

/-- Y5: a second step after a halt returns the same outcome and has no successor. -/
theorem test_step_after_halt :
    step { State.reset with status := .halted .ecall 0x40 } = .fault (.coreHalted .ecall 0x40) := rfl

/-- A byte the host did not load is unknown, and loads as what the memory gives it (70_reset_and_hazards.md R253). -/
theorem test_unloaded_byte_is_unknown :
    result (bench 0x0000C183 [(1, 0x180)]) 3 = some ((Config.memInit 0x180).zeroExtend 32, 4, .running) := rfl

/-- The host's two entries: the decoder on a table word, and the first step after reset on it. -/
theorem test_host_entries :
    decodeTableWord 32 0x002081B3 = some (.add 3 1 2) ∧
    result (State.reset.withFetchWord 32 0x00100093) 1 = some (1, 4, .running) := by decide

/-! ## Witnesses: for each statement with hypotheses, a state and operands that meet them -/

theorem not_admitted_of {m : Memory} {a : Word} {n : Nat} (h : m.admits a n = false) : ¬ Admitted m a n :=
  fun ha => Bool.noConfusion (h.symm.trans ((admitted_iff m a n).mp ha))

theorem admitted_of {m : Memory} {a : Word} {n : Nat} (h : m.admits a n = true) : Admitted m a n :=
  (admitted_iff m a n).mpr h

/-- DecodeOfEncode: the ends of every immediate's range. -/
theorem test_witness_DecodeOfEncode :
    ∀ i ∈ [Instr.add 31 0 31, .addi 31 31 2047, .andi 0 0 (-2048), .srai 31 0 31, .lw 1 2 2047, .lbu 1 2 (-2048),
      .sw 1 2 2047, .sb 1 2 (-2048), .beq 1 2 4094, .bgeu 1 2 (-4096), .jal 1 1048574, .jal 1 (-1048576),
      .jalr 1 2 2047, .ecall, .ebreak], i.wellFormed = true := by decide

theorem test_witness_EncodeOfDecode : decode 0x80000063 = .instr (.beq 0 0 (-4096)) := by decide

theorem test_witness_DecodeTableRowsAgree :
    decode 0x0010006F = .instr (.jal 0 0x800) ∧ ⟨"JAL", 0x0000007F, 0x0000006F⟩ ∈ decodeTable ∧
    (0x0010006F#32 &&& 0x0000007F#32) = 0x0000006F#32 := by decide

/-- IllegalWordsAreRejected, each of its premises. -/
theorem test_witness_IllegalWordsAreRejected :
    ((0x30200073#32).extractLsb' 0 7 = 0b1110011#7 ∧ (0x30200073#32) ≠ 0x00000073 ∧ (0x30200073#32) ≠ 0x00100073) ∧
    (∀ row ∈ decodeTable, (0x00002063#32) &&& row.mask ≠ row.pattern) ∧
    (0x12345037#32).extractLsb' 0 7 ∈ [0b0110111#7] ∧ (0x00000032#32).extractLsb' 0 2 ≠ 0b11#2 ∧
    decode 0 = .illegalEncoding 0 := by decide

theorem test_witness_StepRunsTheDecodedInstruction :
    CanStep (coreWith 0x1FC 0x200 [] [(0x1FC, 0x00000013)]) ∧
    Admitted (coreWith 0x1FC 0x200 [] [(0x1FC, 0x00000013)]).mem 0x1FC 4 ∧
    decodeBytes ((coreWith 0x1FC 0x200 [] [(0x1FC, 0x00000013)]).mem.byteAt 0x1FC)
      ((coreWith 0x1FC 0x200 [] [(0x1FC, 0x00000013)]).mem.byteAt 0x1FD)
      ((coreWith 0x1FC 0x200 [] [(0x1FC, 0x00000013)]).mem.byteAt 0x1FE)
      ((coreWith 0x1FC 0x200 [] [(0x1FC, 0x00000013)]).mem.byteAt 0x1FF) = .instr (.addi 0 0 0) :=
  ⟨⟨by decide, by decide⟩, admitted_of (by decide), by decide⟩

/-- FetchAndDecodeFaultsInOrder: a pc of 2, the first address past the window, a zero word in its last place. -/
theorem test_witness_FetchAndDecodeFaultsInOrder :
    (CanStep (coreWith 2 0x200 [] []) ∧ (coreWith 2 0x200 [] []).pc.toNat % 4 ≠ 0) ∧
    (CanStep (coreWith 0x200 0x200 [] []) ∧ (coreWith 0x200 0x200 [] []).pc.toNat % 4 = 0 ∧
      ¬ Admitted (coreWith 0x200 0x200 [] []).mem 0x200 4) ∧
    (CanStep (coreWith 0x1FC 0x200 [] [(0x1FC, 0)]) ∧ Admitted (coreWith 0x1FC 0x200 [] [(0x1FC, 0)]).mem 0x1FC 4 ∧
      (0#32).toNat = wordAt (coreWith 0x1FC 0x200 [] [(0x1FC, 0)]).mem 0x1FC ∧ decode 0 = .illegalEncoding 0) :=
  ⟨⟨⟨by decide, by decide⟩, by decide⟩, ⟨⟨by decide, by decide⟩, by decide, not_admitted_of (by decide)⟩,
    ⟨by decide, by decide⟩, admitted_of (by decide), by decide, by decide⟩

theorem test_witness_StoppedCoreIsInert :
    ∃ s s' : State, s.config = .rv32iOnly ∧ s.status = .halted .ebreak 8 ∧ s'.config = .rv32iOnly ∧
      s'.status = .faulted (.illegalEncoding 8 0) :=
  ⟨{ State.reset with status := .halted .ebreak 8 }, { State.reset with status := .faulted (.illegalEncoding 8 0) },
    rfl, rfl, rfl, rfl⟩

theorem test_witness_NonDefaultConfigurationIsRefused : ∃ s : State, s.config = .nonDefault :=
  ⟨{ State.reset with config := .nonDefault }, rfl⟩

theorem test_witness_StepOutcomeIsTheStatus :
    (∃ t, stepCall (bench 0x00000013 []) = .ok (.continued, t)) ∧
    (∃ t, stepCall (bench 0x00000073 []) = .ok (.halted .ecall 0, t)) ∧
    ∃ t, stepCall (coreWith 1 0x200 [] []) = .ok (.faulted (.misalignedAccess .fetch 1 1), t) :=
  ⟨⟨_, rfl⟩, ⟨_, rfl⟩, ⟨_, rfl⟩⟩

/-- StopsArePrecise: a fetch fault, a load fault and a halt. -/
theorem test_witness_StopsArePrecise :
    (∃ t, step (coreWith 1 0x200 [] []) = .next t ∧ t.status = .faulted (.misalignedAccess .fetch 1 1)) ∧
    (∃ t, step (bench 0x0000A183 [(1, 0x200)]) = .next t ∧ t.status = .faulted (.outOfBoundsAccess .load 0 0x200)) ∧
    ∃ t, step (bench 0x00000073 []) = .next t ∧ t.status = .halted .ecall 0 :=
  ⟨⟨_, rfl, rfl⟩, ⟨_, rfl, rfl⟩, ⟨_, rfl, rfl⟩⟩

/-- InstructionsRaiseOnlyTheirStops: a store fault, a halt, and an instruction that raises nothing. -/
theorem test_witness_InstructionsRaiseOnlyTheirStops :
    (∃ t, exec (.sh 1 2 0) (bench 0 [(1, 0x101)]) = .next t ∧ t.status = .faulted (.misalignedAccess .store 0 0x101)) ∧
    (∃ t, exec .ebreak (bench 0 []) = .next t ∧ t.status = .halted .ebreak 0) ∧
    ∃ t, exec (.add 3 1 2) (bench 0 []) = .next t ∧ (Instr.add 3 1 2).mayRaise = [] ∧
      (Instr.add 3 1 2).haltCause = none :=
  ⟨⟨_, rfl, rfl⟩, ⟨_, rfl, rfl⟩, ⟨_, rfl, rfl, rfl⟩⟩

/-- The load and store statements: the last admitted address of each width, the first that is not, and a misaligned one. -/
theorem test_witness_LoadAndStoreRules :
    (Admitted (bench 0 [(1, 0x1FF)]).mem ((bench 0 [(1, 0x1FF)]).x 1 + 0) 1 ∧
      ¬ Admitted (bench 0 [(1, 0x1FF)]).mem ((bench 0 [(1, 0x1FF)]).x 1 + 1) 1) ∧
    (((bench 0 [(1, 0x1FE)]).x 1 + 0).toNat % 2 = 0 ∧
      Admitted (bench 0 [(1, 0x1FE)]).mem ((bench 0 [(1, 0x1FE)]).x 1 + 0) 2 ∧
      ((bench 0 [(1, 0x1FE)]).x 1 + 2).toNat % 2 = 0 ∧
      ¬ Admitted (bench 0 [(1, 0x1FE)]).mem ((bench 0 [(1, 0x1FE)]).x 1 + 2) 2 ∧
      ((bench 0 [(1, 0x1FE)]).x 1 + 1).toNat % 2 ≠ 0) ∧
    (((bench 0 [(1, 0x1FC)]).x 1 + 0).toNat % 4 = 0 ∧
      Admitted (bench 0 [(1, 0x1FC)]).mem ((bench 0 [(1, 0x1FC)]).x 1 + 0) 4 ∧
      ((bench 0 [(1, 0x1FC)]).x 1 + 4).toNat % 4 = 0 ∧
      ¬ Admitted (bench 0 [(1, 0x1FC)]).mem ((bench 0 [(1, 0x1FC)]).x 1 + 4) 4 ∧
      ((bench 0 [(1, 0x1FC)]).x 1 + 2).toNat % 4 ≠ 0) :=
  ⟨⟨admitted_of (by decide), not_admitted_of (by decide)⟩,
    ⟨by decide, admitted_of (by decide), by decide, not_admitted_of (by decide), by decide⟩,
    ⟨by decide, admitted_of (by decide), by decide, not_admitted_of (by decide), by decide⟩⟩

/-- InterfaceReadsLittleEndian and InterfaceWritesLittleEndian, at the end of the window. -/
theorem test_witness_InterfaceStatements :
    (Admitted (Memory.reference 0 0x200) 0x1FF 1 ∧ ¬ Admitted (Memory.reference 0 0x200) 0x200 1) ∧
    (Admitted (Memory.reference 0 0x200) 0x1FE 2 ∧ ¬ Admitted (Memory.reference 0 0x200) 0x1FF 2) ∧
    Admitted (Memory.reference 0 0x200) 0x1FC 4 ∧ ¬ Admitted (Memory.reference 0 0x200) 0x1FD 4 :=
  ⟨⟨admitted_of (by decide), not_admitted_of (by decide)⟩, ⟨admitted_of (by decide), not_admitted_of (by decide)⟩,
    admitted_of (by decide), not_admitted_of (by decide)⟩

/-- ReferenceWindowIsAdmitted: a window up to the top of the address space, the last aligned word. -/
theorem test_witness_ReferenceWindowIsAdmitted :
    0x80000000 + 0x80000000 ≤ 2 ^ 32 ∧ 4 ∈ [1, 2, 4] ∧ (0xFFFFFFFC#32).toNat % 4 = 0 := by decide

/-- StoreThenLoadRoundTrips and MixedWidthsComposeLittleEndian: the last word, half-word and byte of the window. -/
theorem test_witness_RoundTripStatements :
    (3 : RegIdx) ≠ 0 ∧ ((bench 0 [(1, 0x1FC)]).x 1 + 0).toNat % 4 = 0 ∧
    Admitted (bench 0 [(1, 0x1FC)]).mem ((bench 0 [(1, 0x1FC)]).x 1 + 0) 4 ∧
    ((bench 0 [(1, 0x1FC)]).x 1 + 2).toNat % 2 = 0 ∧
    Admitted (bench 0 [(1, 0x1FC)]).mem ((bench 0 [(1, 0x1FC)]).x 1 + 2) 2 ∧
    Admitted (bench 0 [(1, 0x1FC)]).mem ((bench 0 [(1, 0x1FC)]).x 1 + 3) 1 :=
  ⟨by decide, by decide, admitted_of (by decide), by decide, admitted_of (by decide), admitted_of (by decide)⟩

/-- FetchSeesTheStore: the word ECALL stored at the end of the window, and a core about to fetch it. -/
theorem test_witness_FetchSeesTheStore :
    ((bench 0 [(1, 0x1FC), (2, 0x73)]).x 1 + 0).toNat % 4 = 0 ∧
    Admitted (bench 0 [(1, 0x1FC), (2, 0x73)]).mem ((bench 0 [(1, 0x1FC), (2, 0x73)]).x 1 + 0) 4 ∧
    decode ((bench 0 [(1, 0x1FC), (2, 0x73)]).x 2) = .instr .ecall ∧
    ∃ t u, exec (.sw 1 2 0) (bench 0 [(1, 0x1FC), (2, 0x73)]) = .next t ∧ CanStep u ∧ u.mem = t.mem ∧
      u.pc = (bench 0 [(1, 0x1FC), (2, 0x73)]).x 1 + 0 :=
  ⟨by decide, admitted_of (by decide), by decide, _, State.construct (some 0x1FC) []
    ((bench 0 [(1, 0x1FC), (2, 0x73)]).mem.setBytes 0x1FC 0x73 4), rfl, ⟨rfl, rfl⟩, by decide, by decide⟩

/-- The branch statements: each condition met and not met. -/
theorem test_witness_BranchRules :
    ((bench 0 [(2, 0x80000000), (3, 0x7FFFFFFF)]).x 2).toInt < ((bench 0 [(2, 0x80000000), (3, 0x7FFFFFFF)]).x 3).toInt ∧
    ((bench 0 [(2, 0x80000000), (3, 0x7FFFFFFF)]).x 2).toNat ≥ ((bench 0 [(2, 0x80000000), (3, 0x7FFFFFFF)]).x 3).toNat ∧
    ((bench 0 [(2, 0), (3, 0xFFFFFFFF)]).x 2).toInt ≥ ((bench 0 [(2, 0), (3, 0xFFFFFFFF)]).x 3).toInt ∧
    ((bench 0 [(2, 0), (3, 0xFFFFFFFF)]).x 2).toNat < ((bench 0 [(2, 0), (3, 0xFFFFFFFF)]).x 3).toNat ∧
    (bench 0 [(2, 0), (3, 0xFFFFFFFF)]).x 2 ≠ (bench 0 [(2, 0), (3, 0xFFFFFFFF)]).x 3 ∧
    (bench 0 [(2, 7), (3, 7)]).x 2 = (bench 0 [(2, 7), (3, 7)]).x 3 := by decide

/-- TargetsAreCheckedAtTheNextFetch: C30, a target that is 2 mod 4, and a jump past the window. -/
theorem test_witness_TargetsAreCheckedAtTheNextFetch :
    (decode 0x00311163 = .instr (.bne 2 3 2) ∧ (Instr.bne 2 3 2).isControlTransfer = true ∧
      (bench 0x00311163 [(2, 1)]).pc.toNat % 4 = 0 ∧ CanStep (bench 0x00311163 [(2, 1)]) ∧
      ∃ t, exec (.bne 2 3 2) (bench 0x00311163 [(2, 1)]) = .next t ∧ t.pc.toNat % 4 ≠ 0) ∧
    (decode 0x200000EF = .instr (.jal 1 0x200) ∧
      ∃ t, exec (.jal 1 0x200) (bench 0x200000EF []) = .next t ∧ t.pc.toNat % 4 = 0 ∧ ¬ Admitted t.mem t.pc 4) :=
  ⟨⟨by decide, by decide, by decide, ⟨by decide, by decide⟩, _, rfl, by decide⟩,
    by decide, _, rfl, by decide, not_admitted_of (by decide)⟩

/-- TransferRanges: the ends of the branch and JAL ranges, and the highest even address for JALR. -/
theorem test_witness_TransferRanges :
    (decode 0x80000063 = .instr (.beq 0 0 (-4096)) ∧ (0x80000063#32).extractLsb' 0 7 = 0b1100011#7 ∧
      ∃ t, exec (.beq 0 0 (-4096)) State.reset = .next t) ∧
    (decode 0x7FFFF06F = .instr (.jal 0 1048574) ∧ (0x7FFFF06F#32).extractLsb' 0 7 = 0b1101111#7 ∧
      ∃ t, exec (.jal 0 1048574) State.reset = .next t) ∧
    ((bench 0 [(1, 0xFFFFFFFE)]).x 1).toNat % 2 = 0 :=
  ⟨⟨by decide, by decide, _, rfl⟩, ⟨by decide, by decide, _, rfl⟩, by decide⟩

theorem test_witness_ZeroRegisterIsHardwired :
    (Instr.jal 0 8).dest = some 0 ∧ ∃ t, exec (.jal 0 8) State.reset = .next t := ⟨rfl, _, rfl⟩

/-- OnlyDestinationAndStoresChange: a register that is no destination, an instruction that stores nothing. -/
theorem test_witness_OnlyDestinationAndStoresChange :
    (∃ t, exec (.lw 3 1 0) (bench 0 [(1, 0x100)]) = .next t) ∧ (Instr.lw 3 1 0).dest ≠ some 4 ∧
    (Instr.lw 3 1 0).storeSize = none := ⟨⟨_, rfl⟩, by decide, rfl⟩

/-- OnlySourceRegistersAreRead: ECALL with and without a value in a7 (Y4). -/
theorem test_witness_OnlySourceRegistersAreRead :
    ∃ s s' : State, s.status = .running ∧ s'.status = .running ∧ s'.pc = s.pc ∧ s'.config = s.config ∧ s'.mem = s.mem ∧
      (∀ r ∈ Instr.ecall.sources, s'.x r = s.x r) ∧ s'.x 17 ≠ s.x 17 :=
  ⟨State.reset, State.reset.setX 17 93, by decide⟩

theorem test_witness_StepKeepsTheInvariant :
    (bench 0x00208023 [(1, 0x1FF), (2, 0x78)]).Inv ∧
    ∃ t, step (bench 0x00208023 [(1, 0x1FF), (2, 0x78)]) = .next t :=
  ⟨⟨by decide, by decide, by decide, trivial⟩, _, rfl⟩

/-- ConstructionSetsTheState: a value for index 0, one for x31, none for x5. -/
theorem test_witness_ConstructionSetsTheState :
    (([(0, 7), (31, 9)] : List (RegIdx × Word)).map Prod.fst).Nodup ∧
    (∀ p ∈ ([(0, 7), (31, 9)] : List (RegIdx × Word)), p.1 ≠ 5) ∧
    ((31, 9) : RegIdx × Word) ∈ ([(0, 7), (31, 9)] : List (RegIdx × Word)) ∧ (31 : RegIdx) ≠ 0 := by simp

theorem test_witness_BadInitPcFaultsOnTheFirstStep :
    (0x1001#32).toNat % 4 ≠ 0 ∧ (0x200#32).toNat % 4 = 0 ∧ ¬ Admitted (Memory.reference 0 0x200) 0x200 4 :=
  ⟨by decide, by decide, not_admitted_of (by decide)⟩

/-- RunIsStepsUntilBoundOrStop: a step that continues, then a run; a step that halts; a step that faults. -/
theorem test_witness_RunIsStepsUntilBoundOrStop :
    (∃ t o u, stepCall (bench 0x00000063 []) = .ok (.continued, t) ∧ run t 2 = .ok (o, u)) ∧
    (∃ t, stepCall (bench 0x00000073 []) = .ok (.halted .ecall 0, t)) ∧
    ∃ t, stepCall (bench 0 []) = .ok (.faulted (.illegalEncoding 0 0), t) :=
  ⟨⟨_, _, _, rfl, rfl⟩, ⟨_, rfl⟩, ⟨_, rfl⟩⟩

theorem test_witness_RunReturnsWithinItsBound : State.reset.config = .rv32iOnly := rfl

/-- SelfLoopExhaustsEveryBound (R3 of section 7). -/
theorem test_witness_SelfLoopExhaustsEveryBound :
    CanStep (bench 0x00000063 []) ∧ (bench 0x00000063 []).pc.toNat % 4 = 0 ∧
    Admitted (bench 0x00000063 []).mem (bench 0x00000063 []).pc 4 ∧
    wordAt (bench 0x00000063 []).mem (bench 0x00000063 []).pc.toNat = 0x00000063 :=
  ⟨⟨by decide, by decide⟩, by decide, admitted_of (by decide), by decide⟩

theorem test_witness_HostWriteChangesOneByte :
    (bench 0 []).mem.admitsByte 0x1FF = true ∧ (bench 0 []).mem.admitsByte 0x200 = false := by decide

/-- HostLoadPlacesItsBytes: the last two bytes of a window, and a byte before them. -/
theorem test_witness_HostLoadPlacesItsBytes :
    (∀ k, k < ([1, 2] : List Byte).length → (Memory.reference 0 0x200).admitsByte (0x1FE + k) = true) ∧ 0x1FD < 0x1FE := by
  decide

theorem test_witness_HostLoadedWordIsRunNext :
    CanStep (coreWith 0x1FC 0x200 [] []) ∧ (coreWith 0x1FC 0x200 [] []).pc.toNat % 4 = 0 ∧
    Admitted (coreWith 0x1FC 0x200 [] []).mem (coreWith 0x1FC 0x200 [] []).pc 4 ∧ decode 0x00100073 = .instr .ebreak :=
  ⟨⟨by decide, by decide⟩, by decide, admitted_of (by decide), by decide⟩

theorem test_witness_PlacedWordIsRunNext : decode 0x00000073 = .instr .ecall := by decide

end Sys2Proof.Tests
end

/-! PROOFS. The state family (10_state.md): what an instruction reads and writes of the state, what construction and reset
leave, and the configuration that a step refuses. -/

namespace Sys2Proof.Machine

/-! ## What an instruction writes, field by field

The three parts of `exec_effect` that a frame proof needs: registers, memory and configuration. -/

section Writes
variable {i : Instr} {s t : State}

/-- The register file is as before, or the destination was written (R22). -/
theorem exec_regs_cases (h : exec i s = .next t) :
    t.regs = s.regs ∨ ∃ rd v, i.dest = some rd ∧ t.regs = (s.setX rd v).regs := by
  cases exec_effect h with
  | wrote rd v pc hd => exact .inr ⟨rd, v, hd, rfl⟩
  | moved | stored | misaligned | outOfBounds | halted => exact .inl rfl

/-- The memory is as before, or a store wrote the bytes of its width from its effective address on (20_memory.md R44). -/
theorem exec_mem_cases (h : exec i s = .next t) :
    t.mem = s.mem ∨ ∃ rs1 rs2 imm n,
      (i, n) ∈ [(.sb rs1 rs2 imm, 1), (.sh rs1 rs2 imm, 2), (.sw rs1 rs2 imm, 4)] ∧ i.storeSize = some n ∧
      t.mem = s.mem.setBytes (effectiveAddress rs1 imm s).toNat (s.x rs2) n := by
  cases exec_effect h with
  | stored rs1 rs2 imm n hi _ hs => exact .inr ⟨rs1, rs2, imm, n, hi, hs, rfl⟩
  | wrote => exact .inl (by simp)
  | moved | misaligned | outOfBounds | halted => exact .inl rfl

/-- No instruction changes the configuration (R30). -/
theorem exec_config (h : exec i s = .next t) : t.config = s.config := by
  cases exec_effect h with
  | wrote => simp
  | moved | stored | misaligned | outOfBounds | halted => rfl

/-- A register that is no destination reads as before (R22). -/
theorem exec_x_of_ne_dest (h : exec i s = .next t) {r : RegIdx} (hr : i.dest ≠ some r) : t.x r = s.x r := by
  rcases exec_regs_cases h with hregs | ⟨rd, v, hd, hregs⟩
  · exact State.x_congr hregs r
  · have hne : r ≠ rd := by rintro rfl; exact hr hd
    exact (State.x_congr hregs r).trans (State.x_setX_other s rd v hne)

/-- MEM_ADMIT is as before, whatever the instruction (20_memory.md R41). -/
theorem exec_windows (h : exec i s = .next t) : t.mem.windows = s.mem.windows := by
  rcases exec_mem_cases h with hm | ⟨rs1, rs2, imm, n, -, -, hm⟩ <;> simp [hm]

/-- An instruction that stores nothing keeps the memory (20_memory.md R44). -/
theorem exec_mem_of_not_store (h : exec i s = .next t) (hs : i.storeSize = none) : t.mem = s.mem := by
  rcases exec_mem_cases h with hm | ⟨rs1, rs2, imm, n, -, hs', -⟩
  · exact hm
  · simp [hs] at hs'

/-- A store instruction fixes its base register, its offset and its width. -/
theorem store_operands_unique {rs1 rs2 rs1' rs2' : RegIdx} {imm imm' : Word} {n n' : Nat}
    (h : (i, n) ∈ [(.sb rs1 rs2 imm, 1), (.sh rs1 rs2 imm, 2), (.sw rs1 rs2 imm, 4)])
    (h' : (i, n') ∈ [(.sb rs1' rs2' imm', 1), (.sh rs1' rs2' imm', 2), (.sw rs1' rs2' imm', 4)]) :
    rs1' = rs1 ∧ imm' = imm ∧ n' = n := by
  simp only [List.mem_cons, List.not_mem_nil, or_false, Prod.mk.injEq] at h h'
  rcases h with ⟨rfl, rfl⟩ | ⟨rfl, rfl⟩ | ⟨rfl, rfl⟩ <;> simp_all

/-- A store keeps every byte outside the ones of its width from its effective address on (20_memory.md R46). -/
theorem exec_byteAt_outside_store (h : exec i s = .next t) {rs1 rs2 : RegIdx} {imm : Word} {n b : Nat}
    (hi : (i, n) ∈ [(.sb rs1 rs2 imm, 1), (.sh rs1 rs2 imm, 2), (.sw rs1 rs2 imm, 4)])
    (hb : b < (effectiveAddress rs1 imm s).toNat ∨ (effectiveAddress rs1 imm s).toNat + n ≤ b) :
    t.mem.byteAt b = s.mem.byteAt b := by
  rcases exec_mem_cases h with hm | ⟨rs1', rs2', imm', n', hi', -, hm⟩
  · rw [hm]
  · obtain ⟨rfl, rfl, rfl⟩ := store_operands_unique hi hi'
    rw [hm, Memory.byteAt_setBytes, if_neg (by omega)]

end Writes

/-- Settles O34: a register file changes only by a write of the destination, and a write of x0 is discarded. -/
theorem zeroRegisterIsHardwired : Obligations.ZeroRegisterIsHardwired := by
  refine ⟨fun s => s.x_zero, fun i s t hd h => ?_⟩
  rcases exec_regs_cases h with hregs | ⟨rd, v, hrd, hregs⟩
  · exact hregs
  · obtain rfl : (0 : RegIdx) = rd := Option.some.inj (hd.symm.trans hrd)
    exact hregs.trans (congrArg State.regs (State.setX_zero s v))

/-- Settles O35, field by field from the effects of an instruction. -/
theorem onlyDestinationAndStoresChange : Obligations.OnlyDestinationAndStoresChange := fun _ _ _ h =>
  ⟨fun _ hr => exec_x_of_ne_dest h hr, fun hs => SameMem.of_mem (exec_mem_of_not_store h hs),
    fun _ _ _ _ hi _ hb => exec_byteAt_outside_store h hi hb, exec_windows h, exec_config h⟩

/-! ## What an instruction reads

Two states that share pc, status and memory: each shared operation, given the same operands on both, answers next states that
share them again, and the destination when the instruction completed. -/

/-- The two states agree on pc, status and memory; their registers and configurations may differ. -/
structure SharesNonRegs (s s' : State) : Prop where
  pc : s'.pc = s.pc
  status : s'.status = s.status
  mem : s'.mem = s.mem

/-- Both outcomes are next states that share pc, status and memory and, when still running, the register `dest`. -/
def NextAgree (dest : Option RegIdx) (o o' : Outcome) : Prop :=
  ∃ t t', o = .next t ∧ o' = .next t' ∧ SharesNonRegs t t' ∧
    (t.status = .running → ∀ rd, dest = some rd → t'.x rd = t.x rd)

section Reads
variable {s s' : State} {rd rs1 : RegIdx} {v v' addr addr' target target' imm : Word} {n : Nat}

theorem nextAgree_raise (hs : SharesNonRegs s s') (dest : Option RegIdx) {stop : Status} (hstop : stop ≠ .running)
    (p : PcAfter) : NextAgree dest (.next (raise stop p s)) (.next (raise stop p s')) :=
  ⟨_, _, rfl, rfl, ⟨by simp [hs.pc], rfl, hs.mem⟩, fun hrun => absurd hrun hstop⟩

theorem nextAgree_raiseDataFault (hs : SharesNonRegs s s') (dest : Option RegIdx) (r : FaultRecord) :
    NextAgree dest (.next (raiseDataFault r s)) (.next (raiseDataFault r s')) :=
  nextAgree_raise hs dest (by simp) _

theorem nextAgree_raiseHalt (hs : SharesNonRegs s s') (dest : Option RegIdx) (cause : HaltCause) :
    NextAgree dest (.next (raiseHalt cause s)) (.next (raiseHalt cause s')) := by
  unfold raiseHalt
  rw [hs.pc]
  exact nextAgree_raise hs dest (by simp) _

theorem nextAgree_setX (hs : SharesNonRegs s s') (rd : RegIdx) (v pc : Word) :
    NextAgree (some rd) (.next ((s.setX rd v).setPc pc)) (.next ((s'.setX rd v).setPc pc)) := by
  refine ⟨_, _, rfl, rfl, ⟨rfl, by simp [hs.status], by simp [hs.mem]⟩, ?_⟩
  rintro - r ⟨⟩
  simp [State.x_setX]

theorem nextAgree_writeResult (hs : SharesNonRegs s s') (hv : v' = v) :
    NextAgree (some rd) (writeResult rd v s) (writeResult rd v' s') := by
  rw [writeResult_eq, writeResult_eq, hv, hs.pc]
  exact nextAgree_setX hs rd v _

theorem nextAgree_jumpTo (hs : SharesNonRegs s s') (ht : target' = target) :
    NextAgree (some rd) (jumpTo rd target s) (jumpTo rd target' s') := by
  unfold jumpTo
  rw [ht, hs.pc]
  exact nextAgree_setX hs rd _ target

theorem nextAgree_branchTo {taken taken' : Bool} (hs : SharesNonRegs s s') (hc : taken' = taken)
    (ht : target' = target) : NextAgree none (branchTo taken target s) (branchTo taken' target' s') :=
  ⟨_, _, rfl, rfl, ⟨by simp [hc, ht, hs.pc], hs.status, hs.mem⟩, fun _ _ => nofun⟩

theorem nextAgree_loadInto {value value' : Option Word} (hs : SharesNonRegs s s') (ha : addr' = addr)
    (hv : value' = value) :
    NextAgree (some rd) (loadInto rd addr n value s) (loadInto rd addr' n value' s') := by
  subst ha hv
  by_cases hal : addr'.toNat % n = 0
  · cases value' with
    | none =>
      rw [loadInto_outOfBounds hal, loadInto_outOfBounds hal, hs.pc]
      exact nextAgree_raiseDataFault hs _ _
    | some w =>
      rw [loadInto_value hal, loadInto_value hal]
      exact nextAgree_writeResult hs rfl
  · rw [loadInto_misaligned hal, loadInto_misaligned hal, hs.pc]
    exact nextAgree_raiseDataFault hs _ _

theorem nextAgree_storeTo {written written' : Option Memory} (hs : SharesNonRegs s s') (ha : addr' = addr)
    (hw : written' = written) : NextAgree none (storeTo addr n written s) (storeTo addr' n written' s') := by
  subst ha hw
  by_cases hal : addr'.toNat % n = 0
  · cases written' with
    | none =>
      rw [storeTo_outOfBounds hal, storeTo_outOfBounds hal, hs.pc]
      exact nextAgree_raiseDataFault hs _ _
    | some m =>
      rw [storeTo_written hal, storeTo_written hal]
      exact ⟨_, _, rfl, rfl, ⟨by simp [hs.pc], hs.status, rfl⟩, fun _ _ => nofun⟩
  · rw [storeTo_misaligned hal, storeTo_misaligned hal, hs.pc]
    exact nextAgree_raiseDataFault hs _ _

theorem effectiveAddress_congr (hx : s'.x rs1 = s.x rs1) (imm : Word) :
    effectiveAddress rs1 imm s' = effectiveAddress rs1 imm s := by
  simp [effectiveAddress, hx]

theorem relativeTarget_congr (hs : SharesNonRegs s s') : relativeTarget imm s' = relativeTarget imm s := by
  simp [relativeTarget, hs.pc]

theorem registerTarget_congr (hx : s'.x rs1 = s.x rs1) : registerTarget rs1 imm s' = registerTarget rs1 imm s := by
  simp [registerTarget, hx]

end Reads

theorem forall_mem_pair {α : Type} {P : α → Prop} {a b : α} : (∀ x ∈ [a, b], P x) ↔ P a ∧ P b := by simp

/-- What an instruction does depends on pc, status, memory and its source registers only (R22, R140, R200). -/
theorem exec_nextAgree {i : Instr} {s s' : State} (hs : SharesNonRegs s s')
    (hsrc : ∀ r ∈ i.sources, s'.x r = s.x r) : NextAgree i.dest (exec i s) (exec i s') := by
  cases i with
  | add | sub | and | or | xor | slt | sltu | sll | srl | sra =>
    obtain ⟨h1, h2⟩ := forall_mem_pair.mp hsrc
    exact nextAgree_writeResult hs (by rw [h1, h2])
  | addi | andi | ori | xori | slti | sltiu | slli | srli | srai =>
    have h1 := List.forall_mem_singleton.mp hsrc
    exact nextAgree_writeResult hs (by rw [h1])
  | lb | lh | lw | lbu | lhu =>
    have h1 := List.forall_mem_singleton.mp hsrc
    have ha := effectiveAddress_congr h1
    refine nextAgree_loadInto hs (ha _) ?_
    simp [ha, hs.mem, loadByteSigned, loadHalfSigned, loadWord, loadByteUnsigned, loadHalfUnsigned]
  | sb | sh | sw =>
    obtain ⟨h1, h2⟩ := forall_mem_pair.mp hsrc
    have ha := effectiveAddress_congr h1
    exact nextAgree_storeTo hs (ha _) (by rw [ha, hs.mem, h2])
  | jal => exact nextAgree_jumpTo hs (relativeTarget_congr hs)
  | jalr =>
    have h1 := List.forall_mem_singleton.mp hsrc
    exact nextAgree_jumpTo hs (registerTarget_congr h1)
  | beq | bne | blt | bge | bltu | bgeu =>
    obtain ⟨h1, h2⟩ := forall_mem_pair.mp hsrc
    exact nextAgree_branchTo hs (by rw [h1, h2]) (relativeTarget_congr hs)
  | ecall | ebreak => exact nextAgree_raiseHalt hs _ _

/-- Settles O36, by the agreement of the two next states, one shared operation at a time. -/
theorem onlySourceRegistersAreRead : Obligations.OnlySourceRegistersAreRead := by
  intro i s s' hrun hrun' hpc _ hmem hsrc
  obtain ⟨t, t', ht, ht', hshare, hx⟩ := exec_nextAgree ⟨hpc, hrun'.trans hrun.symm, hmem⟩ hsrc
  exact ⟨t, t', ht, ht', hshare.pc, hshare.status, hshare.mem, hx⟩

/-! ## Construction and reset -/

/-- The given registers written one after another, as `State.construct` does. -/
def State.setXs (s : State) (initRegs : List (RegIdx × Word)) : State :=
  initRegs.foldl (fun s p => s.setX p.1 p.2) s

/-- A core to which no register value is given (R36). -/
def State.blank (initPc : Option Word) (mem : Memory) : State :=
  { regs := Vector.replicate 31 0, pc := initPc.getD 0, status := .running, config := .rv32iOnly, mem := mem }

theorem State.construct_eq (initPc : Option Word) (initRegs : List (RegIdx × Word)) (mem : Memory) :
    State.construct initPc initRegs mem = (State.blank initPc mem).setXs initRegs := rfl

@[simp] theorem State.x_blank (initPc : Option Word) (mem : Memory) (r : RegIdx) : (State.blank initPc mem).x r = 0 := by
  simp [State.x, State.blank]

/-- What no write in the list changes is as before all of them. -/
theorem State.setXs_keeps {α : Type} (f : State → α) {initRegs : List (RegIdx × Word)}
    (hf : ∀ p ∈ initRegs, ∀ s : State, f (s.setX p.1 p.2) = f s) (s : State) : f (s.setXs initRegs) = f s := by
  induction initRegs generalizing s with
  | nil => rfl
  | cons p rest ih =>
    calc f ((s.setX p.1 p.2).setXs rest)
        = f (s.setX p.1 p.2) := ih (fun q hq => hf q (by simp [hq])) _
      _ = f s := hf p (by simp) s

theorem State.x_setXs_of_not_mem {initRegs : List (RegIdx × Word)} {r : RegIdx} (hr : ∀ p ∈ initRegs, p.1 ≠ r)
    (s : State) : (s.setXs initRegs).x r = s.x r :=
  State.setXs_keeps (·.x r) (fun p hp s => State.x_setX_other s p.1 p.2 (hr p hp).symm) s

/-- A register given once holds the value given, unless it is x0. -/
theorem State.x_setXs_of_mem {initRegs : List (RegIdx × Word)} (hnd : (initRegs.map Prod.fst).Nodup)
    {p : RegIdx × Word} (hp : p ∈ initRegs) (h0 : p.1 ≠ 0) (s : State) : (s.setXs initRegs).x p.1 = p.2 := by
  induction initRegs generalizing s with
  | nil => simp at hp
  | cons q rest ih =>
    obtain ⟨hq, hnd⟩ := List.nodup_cons.mp hnd
    rcases List.mem_cons.mp hp with rfl | hp
    · have hlater : ∀ q ∈ rest, q.1 ≠ p.1 := fun q hm heq => hq (heq ▸ List.mem_map_of_mem hm)
      calc ((s.setX p.1 p.2).setXs rest).x p.1
          = (s.setX p.1 p.2).x p.1 := State.x_setXs_of_not_mem hlater _
        _ = p.2 := State.x_setX_same s p.1 p.2 h0
    · exact ih hnd hp (s.setX q.1 q.2)

section Construct
variable (initPc : Option Word) (initRegs : List (RegIdx × Word)) (mem : Memory)

/-- A part of the state that no register write changes is what the blank core has. -/
theorem State.construct_keeps {α : Type} (f : State → α) (hf : ∀ s r v, f (State.setX s r v) = f s) :
    f (State.construct initPc initRegs mem) = f (State.blank initPc mem) :=
  State.setXs_keeps f (fun p _ s => hf s p.1 p.2) _

@[simp] theorem State.construct_pc : (State.construct initPc initRegs mem).pc = initPc.getD 0 :=
  State.construct_keeps initPc initRegs mem State.pc State.setX_pc

@[simp] theorem State.construct_status : (State.construct initPc initRegs mem).status = .running :=
  State.construct_keeps initPc initRegs mem State.status State.setX_status

@[simp] theorem State.construct_config : (State.construct initPc initRegs mem).config = .rv32iOnly :=
  State.construct_keeps initPc initRegs mem State.config State.setX_config

@[simp] theorem State.construct_mem : (State.construct initPc initRegs mem).mem = mem :=
  State.construct_keeps initPc initRegs mem State.mem State.setX_mem

end Construct

/-- Settles O39: construction is a blank core with the given registers written one after another. -/
theorem constructionSetsTheState : Obligations.ConstructionSetsTheState := by
  intro initPc initRegs mem
  refine ⟨State.construct_pc .., State.construct_status .., State.construct_config .., State.construct_mem ..,
    State.x_zero _, fun r hr => ?absent, fun hnd p hp h0 => ?given⟩
  case absent =>
    rw [State.construct_eq, State.x_setXs_of_not_mem hr, State.x_blank]
  case given =>
    rw [State.construct_eq, State.x_setXs_of_mem hnd hp h0]

/-- Settles O38: the reset pc is 0 and a running core has no stop to record. -/
theorem resetMeetsTheInvariant : Obligations.ResetMeetsTheInvariant :=
  ⟨reset_mem_wf, by decide, rfl, trivial⟩

/-! ## The configuration -/

/-- Settles O10: `step` looks at the configuration before anything else. -/
theorem nonDefaultConfigurationIsRefused : Obligations.NonDefaultConfigurationIsRefused := by
  intro s hc
  simp only [step, hc]

end Sys2Proof.Machine

/-! PROOFS. The memory family (20_memory.md): the interface's loads and stores, the reference memory's window, a store that a
later fetch sees, the host's write of a byte, and the invariant that every step keeps. -/

namespace Sys2Proof.Machine

/-! ## A decoded instruction is well-formed (30_encoding.md R85)

One lemma for each selector of the decoder: whatever it picks takes the immediate of its own format. -/

theorem selectOp_wellFormed {f7 : BitVec 7} {f3 : BitVec 3} {f : RegIdx → RegIdx → RegIdx → Instr}
    (h : selectOp f7 f3 = some f) (rd rs1 rs2 : RegIdx) : (f rd rs1 rs2).wellFormed = true := by
  unfold selectOp at h; split at h <;> cases h <;> rfl

theorem selectOpImm_wellFormed {f3 : BitVec 3} {f : RegIdx → RegIdx → Word → Instr} (h : selectOpImm f3 = some f)
    (rd rs1 : RegIdx) {imm : Word} (himm : fitsI imm = true) : (f rd rs1 imm).wellFormed = true := by
  unfold selectOpImm at h; split at h <;> cases h <;> exact himm

theorem selectShiftImm_wellFormed {f7 : BitVec 7} {f3 : BitVec 3} {f : RegIdx → RegIdx → Shamt → Instr}
    (h : selectShiftImm f7 f3 = some f) (rd rs1 : RegIdx) (shamt : Shamt) : (f rd rs1 shamt).wellFormed = true := by
  unfold selectShiftImm at h; split at h <;> cases h <;> rfl

theorem selectLoad_wellFormed {f3 : BitVec 3} {f : RegIdx → RegIdx → Word → Instr} (h : selectLoad f3 = some f)
    (rd rs1 : RegIdx) {imm : Word} (himm : fitsI imm = true) : (f rd rs1 imm).wellFormed = true := by
  unfold selectLoad at h; split at h <;> cases h <;> exact himm

theorem selectStore_wellFormed {f3 : BitVec 3} {f : RegIdx → RegIdx → Word → Instr} (h : selectStore f3 = some f)
    (rs1 rs2 : RegIdx) {imm : Word} (himm : fitsS imm = true) : (f rs1 rs2 imm).wellFormed = true := by
  unfold selectStore at h; split at h <;> cases h <;> exact himm

theorem selectBranch_wellFormed {f3 : BitVec 3} {f : RegIdx → RegIdx → Word → Instr} (h : selectBranch f3 = some f)
    (rs1 rs2 : RegIdx) {imm : Word} (himm : fitsB imm = true) : (f rs1 rs2 imm).wellFormed = true := by
  unfold selectBranch at h; split at h <;> cases h <;> exact himm

theorem selectJalr_wellFormed {f3 : BitVec 3} {f : RegIdx → RegIdx → Word → Instr} (h : selectJalr f3 = some f)
    (rd rs1 : RegIdx) {imm : Word} (himm : fitsI imm = true) : (f rd rs1 imm).wellFormed = true := by
  unfold selectJalr at h
  split at h
  next => cases h; exact himm
  next => cases h

theorem selectSystem_wellFormed {raw : Word} {i : Instr} (h : selectSystem raw = some i) : i.wellFormed = true := by
  unfold selectSystem at h; split at h <;> cases h <;> rfl

/-- The decoder gives well-formed instructions only, one opcode group at a time (R71, R85). -/
theorem decodeInstr_wellFormed {raw : Word} {i : Instr} (h : decodeInstr raw = some i) : i.wellFormed = true := by
  unfold decodeInstr at h
  split at h
  next =>
    obtain ⟨f, hf, rfl⟩ := Option.map_eq_some_iff.mp h
    exact selectOp_wellFormed hf _ _ _
  next =>
    split at h
    next f hf => cases h; exact selectOpImm_wellFormed hf _ _ (fitsI_immI raw)
    next =>
      obtain ⟨f, hf, rfl⟩ := Option.map_eq_some_iff.mp h
      exact selectShiftImm_wellFormed hf _ _ _
  next =>
    obtain ⟨f, hf, rfl⟩ := Option.map_eq_some_iff.mp h
    exact selectLoad_wellFormed hf _ _ (fitsI_immI raw)
  next =>
    obtain ⟨f, hf, rfl⟩ := Option.map_eq_some_iff.mp h
    exact selectStore_wellFormed hf _ _ (fitsS_immS raw)
  next =>
    obtain ⟨f, hf, rfl⟩ := Option.map_eq_some_iff.mp h
    exact selectBranch_wellFormed hf _ _ (fitsB_immB raw)
  next => cases h; exact fitsJ_immJ raw
  next =>
    obtain ⟨f, hf, rfl⟩ := Option.map_eq_some_iff.mp h
    exact selectJalr_wellFormed hf _ _ (fitsI_immI raw)
  next => exact selectSystem_wellFormed h
  next => cases h

theorem decode_wellFormed {raw : Word} {i : Instr} (h : decode raw = .instr i) : i.wellFormed = true :=
  decodeInstr_wellFormed ((decode_eq_instr_iff raw i).mp h)

/-! ## The invariant of a run

Each way an instruction or a step can end keeps it: a completed instruction leaves the core running, so there is no stop to
record; a raise leaves memory and configuration alone and records what held. -/

theorem stopRecorded_of_running {s : State} (h : s.status = .running) : StopRecorded s := by
  simp [StopRecorded, h]

theorem even_of_aligned {a : Word} (h : a.toNat % 4 = 0) : a.toNat % 2 = 0 := by omega

/-- The pc a stop leaves is even when ipc is (40_execution_engine.md R103). -/
theorem even_resolve {ipc : Word} (h : ipc.toNat % 2 = 0) (p : PcAfter) : (PcAfter.resolve p ipc).toNat % 2 = 0 := by
  cases p with
  | instr => exact h
  | next => exact even_add_four h

section Invariant
variable {s t : State}

theorem State.Inv.raise (hs : s.Inv) {stop : Status} {p : PcAfter} (hstop : StopRecorded (Machine.raise stop p s)) :
    (Machine.raise stop p s).Inv := by
  obtain ⟨hmem, hpc, hconfig, -⟩ := hs
  exact ⟨hmem, even_resolve hpc p, hconfig, hstop⟩

/-- A misaligned load or store is recorded as R223 says. -/
theorem State.Inv.raise_misaligned (hs : s.Inv) (hpc : s.pc.toNat % 4 = 0) {cls : AccessClass} (hcls : cls ≠ .fetch)
    {addr : Word} (haddr : addr.toNat % 4 ≠ 0) : (raiseDataFault (.misalignedAccess cls s.pc addr) s).Inv := by
  refine hs.raise ?_
  cases cls with
  | fetch => exact absurd rfl hcls
  | load | store => exact ⟨rfl, hpc, haddr⟩

/-- A load or store out of bounds is recorded as R223 says. -/
theorem State.Inv.raise_outOfBounds (hs : s.Inv) (hpc : s.pc.toNat % 4 = 0) {cls : AccessClass} (hcls : cls ≠ .fetch)
    {addr : Word} (haddr : ¬ Admitted s.mem addr 4) : (raiseDataFault (.outOfBoundsAccess cls s.pc addr) s).Inv := by
  refine hs.raise ?_
  cases cls with
  | fetch => exact absurd rfl hcls
  | load | store => exact ⟨rfl, hpc, haddr⟩

/-- A fetch or decode fault is recorded as R223 says. -/
theorem State.Inv.raise_fetchFault (hs : s.Inv) {r : FaultRecord} (hr : FetchFault s r) : (raiseFetchFault r s).Inv := by
  refine hs.raise ?_
  cases hr with
  | misaligned hpc => exact ⟨rfl, rfl, hpc⟩
  | outOfBounds hpc hadm => exact ⟨rfl, rfl, hpc, hadm⟩
  | illegal hpc raw _ hd => exact ⟨rfl, hpc, hd⟩

/-- A well-formed instruction at an aligned pc of a running core keeps the invariant, whichever effect it has. -/
theorem exec_keeps_inv {i : Instr} (hs : s.Inv) (hrun : s.status = .running) (hpc : s.pc.toNat % 4 = 0)
    (hwf : i.wellFormed = true) (h : exec i s = .next t) : t.Inv := by
  have ⟨hmem, heven, hconfig, _⟩ := hs
  cases exec_effect h with
  | wrote rd v pc _ _ hnext =>
    exact ⟨by simpa using hmem, hnext hwf heven, by simpa using hconfig, stopRecorded_of_running (by simpa using hrun)⟩
  | moved pc _ _ hnext => exact ⟨hmem, hnext hwf heven, hconfig, stopRecorded_of_running hrun⟩
  | stored rs1 rs2 imm n _ _ _ _ hadm =>
    exact ⟨Memory.wf_setBytes hmem ((Memory.admits_iff _ _ _).mp hadm), even_add_four heven, hconfig,
      stopRecorded_of_running hrun⟩
  | misaligned cls addr n hn hcls haddr =>
    have haddr4 : addr.toNat % 4 ≠ 0 := by rcases hn with rfl | rfl <;> omega
    exact hs.raise_misaligned hpc hcls haddr4
  | outOfBounds cls addr n hn hcls _ hadm => exact hs.raise_outOfBounds hpc hcls fun h4 => hadm (h4.mono hn)
  | halted cause _ _ => exact hs.raise ⟨rfl, hpc⟩

end Invariant

/-- Settles O37: the step executed a decoded instruction at an aligned pc, or raised a fetch or decode fault; each keeps the
invariant. -/
theorem stepKeepsTheInvariant : Obligations.StepKeepsTheInvariant := by
  intro s t hs h
  obtain ⟨-, hrun, ⟨i, raw, hpc, -, hd, hexec⟩ | ⟨r, hr, rfl⟩⟩ := step_cases h
  · exact exec_keeps_inv hs hrun hpc (decode_wellFormed hd) hexec
  · exact hs.raise_fetchFault hr

/-! ## The Memory Interface -/

/-- Settles O22: each load answers the bytes composed, and the composed bytes as a number are the little-endian one. -/
theorem interfaceReadsLittleEndian : Obligations.InterfaceReadsLittleEndian := fun m addr =>
  ⟨fun h => ⟨_, load8_of_admitted h, rfl⟩, load8_of_not_admitted,
    fun h => ⟨_, load16_of_admitted h, halfAt_eq m addr.toNat⟩, load16_of_not_admitted,
    fun h => ⟨_, load32_of_admitted h, wordAt_eq m addr.toNat⟩, load32_of_not_admitted⟩

/-- What the three stores share: `n` bytes written when all are admitted, else nothing (R46). -/
theorem Memory.store_eq {n : Nat} {store : Memory → Word → Word → Option Memory}
    (h : (n, store) ∈ [(1, Memory.store8), (2, Memory.store16), (4, Memory.store32)]) (m : Memory) (addr v : Word) :
    store m addr v = if m.admits addr n then some (m.setBytes addr.toNat v n) else none := by
  simp only [List.mem_cons, List.not_mem_nil, or_false, Prod.mk.injEq] at h
  rcases h with ⟨rfl, rfl⟩ | ⟨rfl, rfl⟩ | ⟨rfl, rfl⟩ <;> rfl

/-- Settles O23: an admitted store is `setBytes`, whose bytes `storedBytes_setBytes` gives for a core that holds the memory. -/
theorem interfaceWritesLittleEndian : Obligations.InterfaceWritesLittleEndian := by
  intro m addr v n store hstore
  rw [Memory.store_eq hstore, admitted_iff]
  refine ⟨fun h => if_neg h, fun h => ⟨m.setBytes addr.toNat v n, if_pos h, ?_⟩⟩
  exact storedBytes_setBytes (State.blank none m) addr.toNat n v 0

/-! ## A store and a later fetch -/

/-- A word written is the word read back (R45 to R47). -/
theorem Memory.load32_setBytes {m : Memory} {addr : Word} (h : Admitted m addr 4) (v : Word) :
    (m.setBytes addr.toNat v 4).load32 addr = some v := by
  rw [load32_of_admitted ((admitted_setBytes m _ v 4 addr 4).mpr h)]
  simp [Memory.byteAt_setBytes, wordOfBytes_byteOf]

/-- A core that can step runs the instruction that the word at its aligned pc decodes to (40_execution_engine.md R100). -/
theorem step_of_load32 {s : State} {raw : Word} {i : Instr} (hs : CanStep s) (hpc : s.pc.toNat % 4 = 0)
    (hload : s.mem.load32 s.pc = some raw) (hd : decode raw = .instr i) : step s = exec i s := by
  simp [step_of_canStep hs, fetchDecode_of_load hpc, hload, hd]

/-- SW at an aligned and admitted address (42_load_store.md R169). -/
theorem exec_sw_of_admitted {s : State} {rs1 : RegIdx} {imm : Word} (ha : (s.x rs1 + imm).toNat % 4 = 0)
    (hadm : Admitted s.mem (s.x rs1 + imm) 4) (rs2 : RegIdx) :
    exec (.sw rs1 rs2 imm) s =
      .next ((s.setMem (s.mem.setBytes (s.x rs1 + imm).toNat (s.x rs2) 4)).setPc (s.pc + 4)) := by
  calc exec (.sw rs1 rs2 imm) s
      = storeTo (s.x rs1 + imm) 4 (s.mem.store32 (s.x rs1 + imm) (s.x rs2)) s := rfl
    _ = _ := by rw [store32_of_admitted hadm, storeTo_written ha]

/-- Settles O27: the fetch reads back the word that SW wrote. -/
theorem fetchSeesTheStore : Obligations.FetchSeesTheStore := by
  intro s rs1 rs2 imm i ha hadm hd
  refine ⟨_, exec_sw_of_admitted ha hadm rs2, fun u hu hmem hpc => ?_⟩
  refine step_of_load32 hu (hpc ▸ ha) ?_ hd
  rw [hmem, hpc]
  exact Memory.load32_setBytes hadm (s.x rs2)

/-! ## Admission -/

/-- The reference memory admits the addresses of its window that are 32-bit numbers (R40, R42). -/
theorem Memory.admitsByte_reference (base size a : Nat) :
    (Memory.reference base size).admitsByte a = true ↔ a < 2 ^ 32 ∧ base ≤ a ∧ a < base + size := by
  simp [Memory.admitsByte, Memory.reference, Window.holds]

/-- An aligned access whose width divides 2^32 does not pass the top of the address space (R49). -/
theorem aligned_add_le {addr : Word} {n : Nat} (hn : n ∣ 2 ^ 32) (ha : addr.toNat % n = 0) :
    addr.toNat + n ≤ 2 ^ 32 := by
  have hdvd : n ∣ addr.toNat + n := Nat.dvd_add_self_right.mpr (Nat.dvd_of_mod_eq_zero ha)
  exact Nat.le_of_lt_add_of_dvd (Nat.add_lt_add_right addr.isLt n) hdvd hn

/-- Settles O24: no address of such a window is past the top, and 1, 2 and 4 divide 2^32. -/
theorem referenceWindowIsAdmitted : Obligations.ReferenceWindowIsAdmitted := by
  refine ⟨fun base size a htop => ?window, fun addr n hn ha => aligned_add_le ?width ha⟩
  case window =>
    rw [Memory.admitsByte_reference]
    omega
  case width =>
    have hdvd : ∀ n ∈ [1, 2, 4], n ∣ 2 ^ 32 := by decide
    exact hdvd n hn

/-! ## The host's write (R59) -/

theorem Memory.hostWrite_of_not_admitted {m : Memory} {a : Nat} (h : m.admitsByte a = false) (v : Byte) :
    m.hostWrite a v = m := by
  simp [Memory.hostWrite, h]

/-- The host's write keeps every other byte, also when the address has none. -/
theorem Memory.byteAt_hostWrite_other (m : Memory) {a b : Nat} (hb : b ≠ a) (v : Byte) :
    (m.hostWrite a v).byteAt b = m.byteAt b := by
  cases h : m.admitsByte a with
  | false => rw [Memory.hostWrite_of_not_admitted h]
  | true => rw [Memory.byteAt_hostWrite h, if_neg hb]

/-- Settles O44: the host touches the memory only, and of the memory one admitted byte. -/
theorem hostWriteChangesOneByte : Obligations.HostWriteChangesOneByte := by
  intro s a v
  refine ⟨fun r => State.x_setMem .., rfl, rfl, rfl, Memory.hostWrite_windows .., fun hadm => ?admitted,
    fun hadm => ?refused, fun b hb => Memory.byteAt_hostWrite_other s.mem hb v⟩
  case admitted => exact (Memory.byteAt_hostWrite hadm v a).trans (if_pos rfl)
  case refused => exact congrArg s.setMem (Memory.hostWrite_of_not_admitted hadm v)

end Sys2Proof.Machine

/-! PROOFS. The encoding family (30_encoding.md): what a decoded word can be, said once; the two round trips of encoder and
decoder; the decode table; the words that are no instruction; and the immediates as numbers. -/

namespace Sys2Proof

/-! ## What the decoder can answer (R71, R74)

`DecodesBy` lists the groups of the decoder, each with the fields it compares. The proofs of this family cite it. -/

/-- The group of the decoder that gives `i` for `raw`, with what was compared and the operands taken. -/
inductive DecodesBy (raw : Word) : Instr → Prop where
  | op {f : RegIdx → RegIdx → RegIdx → Instr} (h0 : opcode raw = 0b0110011#7)
      (hf : selectOp (funct7 raw) (funct3 raw) = some f) : DecodesBy raw (f (rdField raw) (rs1Field raw) (rs2Field raw))
  | opImm {f : RegIdx → RegIdx → Word → Instr} (h0 : opcode raw = 0b0010011#7)
      (hf : selectOpImm (funct3 raw) = some f) : DecodesBy raw (f (rdField raw) (rs1Field raw) (immI raw))
  | shiftImm {f : RegIdx → RegIdx → Shamt → Instr} (h0 : opcode raw = 0b0010011#7)
      (hf : selectShiftImm (funct7 raw) (funct3 raw) = some f) :
      DecodesBy raw (f (rdField raw) (rs1Field raw) (shamtField raw))
  | load {f : RegIdx → RegIdx → Word → Instr} (h0 : opcode raw = 0b0000011#7)
      (hf : selectLoad (funct3 raw) = some f) : DecodesBy raw (f (rdField raw) (rs1Field raw) (immI raw))
  | store {f : RegIdx → RegIdx → Word → Instr} (h0 : opcode raw = 0b0100011#7)
      (hf : selectStore (funct3 raw) = some f) : DecodesBy raw (f (rs1Field raw) (rs2Field raw) (immS raw))
  | branch {f : RegIdx → RegIdx → Word → Instr} (h0 : opcode raw = 0b1100011#7)
      (hf : selectBranch (funct3 raw) = some f) : DecodesBy raw (f (rs1Field raw) (rs2Field raw) (immB raw))
  | jal (h0 : opcode raw = 0b1101111#7) : DecodesBy raw (.jal (rdField raw) (immJ raw))
  | jalr {f : RegIdx → RegIdx → Word → Instr} (h0 : opcode raw = 0b1100111#7)
      (hf : selectJalr (funct3 raw) = some f) : DecodesBy raw (f (rdField raw) (rs1Field raw) (immI raw))
  | system {i : Instr} (h0 : opcode raw = 0b1110011#7) (hi : selectSystem raw = some i) : DecodesBy raw i

/-- The funct3 values of the shift rows are none of the rows with an immediate (R76). -/
theorem selectOpImm_eq_none_of_shift {f7 : BitVec 7} {f3 : BitVec 3} {f : RegIdx → RegIdx → Shamt → Instr}
    (h : selectShiftImm f7 f3 = some f) : selectOpImm f3 = none := by
  unfold selectShiftImm at h
  split at h
  next => rfl
  next => rfl
  next => rfl
  next => cases h

theorem decodesBy_of_decodeInstr {raw : Word} {i : Instr} (h : decodeInstr raw = some i) : DecodesBy raw i := by
  unfold decodeInstr at h
  split at h
  next h0 => obtain ⟨f, hf, rfl⟩ := Option.map_eq_some_iff.mp h; exact .op h0 hf
  next h0 =>
    split at h
    next f hf => cases h; exact .opImm h0 hf
    next => obtain ⟨f, hf, rfl⟩ := Option.map_eq_some_iff.mp h; exact .shiftImm h0 hf
  next h0 => obtain ⟨f, hf, rfl⟩ := Option.map_eq_some_iff.mp h; exact .load h0 hf
  next h0 => obtain ⟨f, hf, rfl⟩ := Option.map_eq_some_iff.mp h; exact .store h0 hf
  next h0 => obtain ⟨f, hf, rfl⟩ := Option.map_eq_some_iff.mp h; exact .branch h0 hf
  next h0 => cases h; exact .jal h0
  next h0 => obtain ⟨f, hf, rfl⟩ := Option.map_eq_some_iff.mp h; exact .jalr h0 hf
  next h0 => exact .system h0 h
  next => cases h

theorem DecodesBy.decodeInstr_eq {raw : Word} {i : Instr} (h : DecodesBy raw i) : decodeInstr raw = some i := by
  cases h with
  | op h0 hf | opImm h0 hf | load h0 hf | store h0 hf | branch h0 hf | jalr h0 hf | system h0 hf =>
    simp [decodeInstr, h0, hf]
  | shiftImm h0 hf => simp [decodeInstr, h0, hf, selectOpImm_eq_none_of_shift hf]
  | jal h0 => simp [decodeInstr, h0]

/-- What a decoded word can be, and nothing else. -/
theorem decode_eq_instr_iff_decodesBy {raw : Word} {i : Instr} : decode raw = .instr i ↔ DecodesBy raw i :=
  (decode_eq_instr_iff raw i).trans ⟨decodesBy_of_decodeInstr, DecodesBy.decodeInstr_eq⟩

/-! ## The encoding of what a selector picks (R62) -/

theorem encode_of_selectOp {f7 : BitVec 7} {f3 : BitVec 3} {f : RegIdx → RegIdx → RegIdx → Instr}
    (h : selectOp f7 f3 = some f) (rd rs1 rs2 : RegIdx) :
    encode (f rd rs1 rs2) = rType f7 rs2 rs1 f3 rd 0b0110011 := by
  unfold selectOp at h; split at h <;> cases h <;> rfl

theorem encode_of_selectOpImm {f3 : BitVec 3} {f : RegIdx → RegIdx → Word → Instr} (h : selectOpImm f3 = some f)
    (rd rs1 : RegIdx) (imm : Word) : encode (f rd rs1 imm) = iType imm rs1 f3 rd 0b0010011 := by
  unfold selectOpImm at h; split at h <;> cases h <;> rfl

theorem encode_of_selectShiftImm {f7 : BitVec 7} {f3 : BitVec 3} {f : RegIdx → RegIdx → Shamt → Instr}
    (h : selectShiftImm f7 f3 = some f) (rd rs1 : RegIdx) (shamt : Shamt) :
    encode (f rd rs1 shamt) = rType f7 shamt rs1 f3 rd 0b0010011 := by
  unfold selectShiftImm at h; split at h <;> cases h <;> rfl

theorem encode_of_selectLoad {f3 : BitVec 3} {f : RegIdx → RegIdx → Word → Instr} (h : selectLoad f3 = some f)
    (rd rs1 : RegIdx) (imm : Word) : encode (f rd rs1 imm) = iType imm rs1 f3 rd 0b0000011 := by
  unfold selectLoad at h; split at h <;> cases h <;> rfl

theorem encode_of_selectStore {f3 : BitVec 3} {f : RegIdx → RegIdx → Word → Instr} (h : selectStore f3 = some f)
    (rs1 rs2 : RegIdx) (imm : Word) : encode (f rs1 rs2 imm) = sType imm rs2 rs1 f3 0b0100011 := by
  unfold selectStore at h; split at h <;> cases h <;> rfl

theorem encode_of_selectBranch {f3 : BitVec 3} {f : RegIdx → RegIdx → Word → Instr} (h : selectBranch f3 = some f)
    (rs1 rs2 : RegIdx) (imm : Word) : encode (f rs1 rs2 imm) = bType imm rs2 rs1 f3 0b1100011 := by
  unfold selectBranch at h; split at h <;> cases h <;> rfl

theorem encode_of_selectJalr {f3 : BitVec 3} {f : RegIdx → RegIdx → Word → Instr} (h : selectJalr f3 = some f)
    (rd rs1 : RegIdx) (imm : Word) : encode (f rd rs1 imm) = iType imm rs1 f3 rd 0b1100111 := by
  unfold selectJalr at h
  split at h
  next => cases h; rfl
  next => cases h

theorem selectSystem_eq_some_iff {raw : Word} {i : Instr} :
    selectSystem raw = some i ↔ raw = 0x00000073 ∧ i = .ecall ∨ raw = 0x00100073 ∧ i = .ebreak := by
  unfold selectSystem
  split
  next => simp [eq_comm]
  next => simp [eq_comm]
  next h1 h2 => simpa using ⟨fun h => (h1 h).elim, fun h => (h2 h).elim⟩

/-! ## Decode then encode -/

/-- A decoded word is put together again from the fields its group compared and took (R71, R84). -/
theorem DecodesBy.encode_eq {raw : Word} {i : Instr} (h : DecodesBy raw i) : encode i = raw := by
  cases h with
  | op h0 hf => exact (encode_of_selectOp hf ..).trans (rType_of_fields rfl rfl h0)
  | opImm h0 hf => exact (encode_of_selectOpImm hf ..).trans (iType_of_fields rfl h0)
  | shiftImm h0 hf => exact (encode_of_selectShiftImm hf ..).trans (rType_of_fields rfl rfl h0)
  | load h0 hf => exact (encode_of_selectLoad hf ..).trans (iType_of_fields rfl h0)
  | store h0 hf => exact (encode_of_selectStore hf ..).trans (sType_of_fields rfl h0)
  | branch h0 hf => exact (encode_of_selectBranch hf ..).trans (bType_of_fields rfl h0)
  | jal h0 => exact jType_of_fields h0
  | jalr h0 hf => exact (encode_of_selectJalr hf ..).trans (iType_of_fields rfl h0)
  | system h0 hi => rcases selectSystem_eq_some_iff.mp hi with ⟨rfl, rfl⟩ | ⟨rfl, rfl⟩ <;> rfl

/-- Settles O2: the operands lie in their formats' ranges, and the group's format gives the word back. -/
theorem encodeOfDecode : Obligations.EncodeOfDecode := fun _ _ h =>
  ⟨Machine.decode_wellFormed h, (decode_eq_instr_iff_decodesBy.mp h).encode_eq⟩

/-! ## Encode then decode

One lemma for each group: the format's fields are the ones the group compares, and the immediate it takes is the one put in
when that lies in the format's range. -/

section Formats
variable {f7 : BitVec 7} {f3 : BitVec 3} (rd rs1 rs2 : RegIdx) {imm : Word}

theorem decodesBy_rType_op {f : RegIdx → RegIdx → RegIdx → Instr} (hf : selectOp f7 f3 = some f) :
    DecodesBy (rType f7 rs2 rs1 f3 rd 0b0110011) (f rd rs1 rs2) := by
  simpa using DecodesBy.op (raw := rType f7 rs2 rs1 f3 rd 0b0110011) (by simp) (by simpa using hf)

theorem decodesBy_rType_shiftImm {f : RegIdx → RegIdx → Shamt → Instr} (hf : selectShiftImm f7 f3 = some f)
    (shamt : Shamt) : DecodesBy (rType f7 shamt rs1 f3 rd 0b0010011) (f rd rs1 shamt) := by
  simpa using DecodesBy.shiftImm (raw := rType f7 shamt rs1 f3 rd 0b0010011) (by simp) (by simpa using hf)

theorem decodesBy_iType_opImm {f : RegIdx → RegIdx → Word → Instr} (hf : selectOpImm f3 = some f)
    (himm : fitsI imm = true) : DecodesBy (iType imm rs1 f3 rd 0b0010011) (f rd rs1 imm) := by
  simpa [immI_iType, signExtend_of_fitsI himm] using
    DecodesBy.opImm (raw := iType imm rs1 f3 rd 0b0010011) (by simp) (by simpa using hf)

theorem decodesBy_iType_load {f : RegIdx → RegIdx → Word → Instr} (hf : selectLoad f3 = some f)
    (himm : fitsI imm = true) : DecodesBy (iType imm rs1 f3 rd 0b0000011) (f rd rs1 imm) := by
  simpa [immI_iType, signExtend_of_fitsI himm] using
    DecodesBy.load (raw := iType imm rs1 f3 rd 0b0000011) (by simp) (by simpa using hf)

theorem decodesBy_iType_jalr {f : RegIdx → RegIdx → Word → Instr} (hf : selectJalr f3 = some f)
    (himm : fitsI imm = true) : DecodesBy (iType imm rs1 f3 rd 0b1100111) (f rd rs1 imm) := by
  simpa [immI_iType, signExtend_of_fitsI himm] using
    DecodesBy.jalr (raw := iType imm rs1 f3 rd 0b1100111) (by simp) (by simpa using hf)

theorem decodesBy_sType_store {f : RegIdx → RegIdx → Word → Instr} (hf : selectStore f3 = some f)
    (himm : fitsS imm = true) : DecodesBy (sType imm rs2 rs1 f3 0b0100011) (f rs1 rs2 imm) := by
  simpa [immS_sType, signExtend_of_fitsS himm] using
    DecodesBy.store (raw := sType imm rs2 rs1 f3 0b0100011) (by simp) (by simpa using hf)

theorem decodesBy_bType_branch {f : RegIdx → RegIdx → Word → Instr} (hf : selectBranch f3 = some f)
    (himm : fitsB imm = true) : DecodesBy (bType imm rs2 rs1 f3 0b1100011) (f rs1 rs2 imm) := by
  simpa [immB_bType _ _ _ _ _ (bit0_of_fitsB himm), signExtend_of_fitsB himm] using
    DecodesBy.branch (raw := bType imm rs2 rs1 f3 0b1100011) (by simp) (by simpa using hf)

theorem decodesBy_jType_jal (himm : fitsJ imm = true) : DecodesBy (jType imm rd 0b1101111) (.jal rd imm) := by
  simpa [immJ_jType _ _ _ (bit0_of_fitsJ himm), signExtend_of_fitsJ himm] using
    DecodesBy.jal (raw := jType imm rd 0b1101111) (by simp)

end Formats

/-- A well-formed instruction's word is decoded by its own group (R85). -/
theorem decodesBy_encode {i : Instr} (h : i.wellFormed = true) : DecodesBy (encode i) i := by
  cases i with
  | add | sub | and | or | xor | slt | sltu | sll | srl | sra => exact decodesBy_rType_op _ _ _ rfl
  | addi | andi | ori | xori | slti | sltiu => exact decodesBy_iType_opImm _ _ rfl h
  | slli | srli | srai => exact decodesBy_rType_shiftImm _ _ rfl _
  | lb | lh | lw | lbu | lhu => exact decodesBy_iType_load _ _ rfl h
  | sb | sh | sw => exact decodesBy_sType_store _ _ rfl h
  | jal => exact decodesBy_jType_jal _ h
  | jalr => exact decodesBy_iType_jalr _ _ rfl h
  | beq | bne | blt | bge | bltu | bgeu => exact decodesBy_bType_branch _ _ rfl h
  | ecall | ebreak => exact .system rfl rfl

/-! The U format, used by no instruction (R66): `immU` and the fields of a word put together from them. -/

section UFormat
variable (v : BitVec 20) (rd : RegIdx) (op : BitVec 7)

theorem immU_append : immU (v ++ rd ++ op) = v ++ 0#12 := by
  have hv : (v ++ rd ++ op).extractLsb' 12 20 = v :=
    (BitVec.extractLsb'_append_eq_of_le (by decide)).trans BitVec.extractLsb'_append_eq_left
  exact congrArg (· ++ 0#12) hv

theorem rdField_append : rdField (v ++ rd ++ op) = rd :=
  (BitVec.extractLsb'_append_eq_of_le (Nat.le_refl 7)).trans BitVec.extractLsb'_append_eq_right

theorem opcode_append : opcode (v ++ rd ++ op) = op := BitVec.extractLsb'_append_eq_right

end UFormat

/-- Settles O1: the word of an instruction is decoded by its group; the U format's fields lie where R60 and R66 read them. -/
theorem decodeOfEncode : Obligations.DecodeOfEncode :=
  ⟨fun _ h => decode_eq_instr_iff_decodesBy.mpr (decodesBy_encode h), fun v rd op =>
    ⟨immU_append v rd op, rdField_append v rd op, opcode_append v rd op⟩⟩

/-! ## The decode table (R73)

`RowDecodes` says for one row's mask and pattern what R73 says, both ways. The three masks of the table compare the opcode,
then funct3, then funct7; one lemma for each group of the decoder says which rows are the group's. -/

section Rows
open Machine

/-- A row decodes to `mk` when each word it matches is decoded so, and each word so encoded is matched. -/
theorem rowDecodes_of {mask p : Word} {mk : Word → Instr} (hdec : ∀ raw, raw &&& mask = p → DecodesBy raw (mk raw))
    (henc : ∀ raw, encode (mk raw) &&& mask = p) : RowDecodes mask p mk := fun raw =>
  ⟨fun h => decode_eq_instr_iff_decodesBy.mpr (hdec raw h), fun h => by
    have hraw : encode (mk raw) = raw := (decode_eq_instr_iff_decodesBy.mp h).encode_eq
    calc raw &&& mask = encode (mk raw) &&& mask := by rw [hraw]
      _ = p := henc raw⟩

variable {p : Word} {op : BitVec 7} {mk : Word → Instr}

/-- A row that compares opcode and funct3. -/
theorem rowDecodes_of_funct3 (hp : p &&& 0x707F#32 = p) (h0 : opcode p = op)
    (hdec : ∀ raw, opcode raw = op → funct3 raw = funct3 p → DecodesBy raw (mk raw))
    (henc : ∀ raw, opcode (encode (mk raw)) = op ∧ funct3 (encode (mk raw)) = funct3 p) :
    RowDecodes 0x0000707F p mk := by
  subst h0
  refine rowDecodes_of (fun raw h => ?_) fun raw => (mask707F_iff hp).mpr (henc raw)
  obtain ⟨e0, e3⟩ := (mask707F_iff hp).mp h
  exact hdec raw e0 e3

/-- A row that compares opcode, funct3 and funct7. -/
theorem rowDecodes_of_funct7 (hp : p &&& 0xFE00707F#32 = p) (h0 : opcode p = op)
    (hdec : ∀ raw, opcode raw = op → funct3 raw = funct3 p → funct7 raw = funct7 p → DecodesBy raw (mk raw))
    (henc : ∀ raw, opcode (encode (mk raw)) = op ∧ funct3 (encode (mk raw)) = funct3 p ∧
      funct7 (encode (mk raw)) = funct7 p) : RowDecodes 0xFE00707F p mk := by
  subst h0
  refine rowDecodes_of (fun raw h => ?_) fun raw => (maskFE00707F_iff hp).mpr (henc raw)
  obtain ⟨e0, e3, e7⟩ := (maskFE00707F_iff hp).mp h
  exact hdec raw e0 e3 e7

theorem rowDecodes_op {f : RegIdx → RegIdx → RegIdx → Instr} (hp : p &&& 0xFE00707F#32 = p)
    (h0 : opcode p = 0b0110011#7) (hf : selectOp (funct7 p) (funct3 p) = some f) :
    RowDecodes 0xFE00707F p fun raw => f (rdField raw) (rs1Field raw) (rs2Field raw) :=
  rowDecodes_of_funct7 hp h0 (fun _ e0 e3 e7 => .op e0 (by rw [e7, e3, hf])) fun _ => by simp [encode_of_selectOp hf]

theorem rowDecodes_shiftImm {f : RegIdx → RegIdx → Shamt → Instr} (hp : p &&& 0xFE00707F#32 = p)
    (h0 : opcode p = 0b0010011#7) (hf : selectShiftImm (funct7 p) (funct3 p) = some f) :
    RowDecodes 0xFE00707F p fun raw => f (rdField raw) (rs1Field raw) (shamtField raw) :=
  rowDecodes_of_funct7 hp h0 (fun _ e0 e3 e7 => .shiftImm e0 (by rw [e7, e3, hf])) fun _ => by
    simp [encode_of_selectShiftImm hf]

theorem rowDecodes_opImm {f : RegIdx → RegIdx → Word → Instr} (hp : p &&& 0x707F#32 = p)
    (h0 : opcode p = 0b0010011#7) (hf : selectOpImm (funct3 p) = some f) :
    RowDecodes 0x0000707F p fun raw => f (rdField raw) (rs1Field raw) (immI raw) :=
  rowDecodes_of_funct3 hp h0 (fun _ e0 e3 => .opImm e0 (by rw [e3, hf])) fun _ => by simp [encode_of_selectOpImm hf]

theorem rowDecodes_load {f : RegIdx → RegIdx → Word → Instr} (hp : p &&& 0x707F#32 = p)
    (h0 : opcode p = 0b0000011#7) (hf : selectLoad (funct3 p) = some f) :
    RowDecodes 0x0000707F p fun raw => f (rdField raw) (rs1Field raw) (immI raw) :=
  rowDecodes_of_funct3 hp h0 (fun _ e0 e3 => .load e0 (by rw [e3, hf])) fun _ => by simp [encode_of_selectLoad hf]

theorem rowDecodes_store {f : RegIdx → RegIdx → Word → Instr} (hp : p &&& 0x707F#32 = p)
    (h0 : opcode p = 0b0100011#7) (hf : selectStore (funct3 p) = some f) :
    RowDecodes 0x0000707F p fun raw => f (rs1Field raw) (rs2Field raw) (immS raw) :=
  rowDecodes_of_funct3 hp h0 (fun _ e0 e3 => .store e0 (by rw [e3, hf])) fun _ => by simp [encode_of_selectStore hf]

theorem rowDecodes_branch {f : RegIdx → RegIdx → Word → Instr} (hp : p &&& 0x707F#32 = p)
    (h0 : opcode p = 0b1100011#7) (hf : selectBranch (funct3 p) = some f) :
    RowDecodes 0x0000707F p fun raw => f (rs1Field raw) (rs2Field raw) (immB raw) :=
  rowDecodes_of_funct3 hp h0 (fun _ e0 e3 => .branch e0 (by rw [e3, hf])) fun _ => by simp [encode_of_selectBranch hf]

theorem rowDecodes_jalr {f : RegIdx → RegIdx → Word → Instr} (hp : p &&& 0x707F#32 = p)
    (h0 : opcode p = 0b1100111#7) (hf : selectJalr (funct3 p) = some f) :
    RowDecodes 0x0000707F p fun raw => f (rdField raw) (rs1Field raw) (immI raw) :=
  rowDecodes_of_funct3 hp h0 (fun _ e0 e3 => .jalr e0 (by rw [e3, hf])) fun _ => by simp [encode_of_selectJalr hf]

theorem rowDecodes_jal (hp : p &&& 0x7F#32 = p) (h0 : opcode p = 0b1101111#7) :
    RowDecodes 0x0000007F p fun raw => .jal (rdField raw) (immJ raw) :=
  rowDecodes_of (fun _ h => .jal (((mask7F_iff hp).mp h).trans h0)) fun _ => (mask7F_iff hp).mpr (by simp [encode, h0])

/-- A SYSTEM row compares all 32 bits (D3). -/
theorem rowDecodes_system {i : Instr} (h0 : opcode p = 0b1110011#7) (hi : selectSystem p = some i) :
    RowDecodes 0xFFFFFFFF p fun _ => i := by
  have hmask : ∀ raw : Word, raw &&& 0xFFFFFFFF#32 = raw := fun _ => BitVec.and_allOnes
  have hdec : DecodesBy p i := .system h0 hi
  refine rowDecodes_of (fun raw h => ?_) fun _ => (hmask _).trans hdec.encode_eq
  obtain rfl : raw = p := (hmask raw).symm.trans h
  exact hdec

/-- The row stands for an instruction: the words it matches are that instruction's, with the word's own operands, and the
row's name is its mnemonic. -/
def RowMeans (row : DecodeRow) : Prop :=
  ∃ mk : Word → Instr, RowDecodes row.mask row.pattern mk ∧ ∀ raw, (mk raw).mnemonic = row.mnemonic

theorem rowMeans_of_mem_opRows : ∀ row ∈ opRows, RowMeans row := by
  simp only [opRows, List.forall_mem_cons, List.not_mem_nil, false_imp_iff, implies_true, and_true]
  and_intros
  iterate 10 exact ⟨_, rowDecodes_op rfl rfl rfl, fun _ => rfl⟩

theorem rowMeans_of_mem_opImmRows : ∀ row ∈ opImmRows, RowMeans row := by
  simp only [opImmRows, List.forall_mem_cons, List.not_mem_nil, false_imp_iff, implies_true, and_true]
  and_intros
  iterate 6 exact ⟨_, rowDecodes_opImm rfl rfl rfl, fun _ => rfl⟩
  iterate 3 exact ⟨_, rowDecodes_shiftImm rfl rfl rfl, fun _ => rfl⟩

theorem rowMeans_of_mem_memoryRows : ∀ row ∈ memoryRows, RowMeans row := by
  simp only [memoryRows, List.forall_mem_cons, List.not_mem_nil, false_imp_iff, implies_true, and_true]
  and_intros
  iterate 5 exact ⟨_, rowDecodes_load rfl rfl rfl, fun _ => rfl⟩
  iterate 3 exact ⟨_, rowDecodes_store rfl rfl rfl, fun _ => rfl⟩

theorem rowMeans_of_mem_controlRows : ∀ row ∈ controlRows, RowMeans row := by
  simp only [controlRows, List.forall_mem_cons, List.not_mem_nil, false_imp_iff, implies_true, and_true]
  and_intros
  iterate 6 exact ⟨_, rowDecodes_branch rfl rfl rfl, fun _ => rfl⟩
  · exact ⟨_, rowDecodes_jal rfl rfl, fun _ => rfl⟩
  · exact ⟨_, rowDecodes_jalr rfl rfl rfl, fun _ => rfl⟩
  iterate 2 exact ⟨_, rowDecodes_system rfl rfl, fun _ => rfl⟩

theorem rowMeans_of_mem {row : DecodeRow} (h : row ∈ decodeTable) : RowMeans row := by
  simp only [decodeTable, List.mem_append, or_assoc] at h
  rcases h with h | h | h | h
  · exact rowMeans_of_mem_opRows row h
  · exact rowMeans_of_mem_opImmRows row h
  · exact rowMeans_of_mem_memoryRows row h
  · exact rowMeans_of_mem_controlRows row h

/-- Two rows that some word matches both agree on the bits that both compare; no two rows of the table do. -/
theorem decodeTable_apart : ∀ row ∈ decodeTable, ∀ row' ∈ decodeTable,
    row.pattern &&& row'.mask = row'.pattern &&& row.mask → row = row' := by decide

theorem row_unique {raw : Word} {row row' : DecodeRow} (hmem : row ∈ decodeTable) (hmem' : row' ∈ decodeTable)
    (h : raw &&& row.mask = row.pattern) (h' : raw &&& row'.mask = row'.pattern) : row = row' := by
  refine decodeTable_apart row hmem row' hmem' ?_
  calc row.pattern &&& row'.mask
      = raw &&& row.mask &&& row'.mask := by rw [h]
    _ = raw &&& row'.mask &&& row.mask := by ac_rfl
    _ = row'.pattern &&& row.mask := by rw [h']

end Rows

/-- Each instruction's encoding lies in its own row, also when the instruction is not well-formed. -/
theorem encodingRow : ∀ i : Instr, Laws.EncodingRow.Statement i
  | .add .. => Laws.EncodingRow.add ..
  | .sub .. => Laws.EncodingRow.sub ..
  | .and .. => Laws.EncodingRow.and ..
  | .or .. => Laws.EncodingRow.or ..
  | .xor .. => Laws.EncodingRow.xor ..
  | .slt .. => Laws.EncodingRow.slt ..
  | .sltu .. => Laws.EncodingRow.sltu ..
  | .sll .. => Laws.EncodingRow.sll ..
  | .srl .. => Laws.EncodingRow.srl ..
  | .sra .. => Laws.EncodingRow.sra ..
  | .addi .. => Laws.EncodingRow.addi ..
  | .andi .. => Laws.EncodingRow.andi ..
  | .ori .. => Laws.EncodingRow.ori ..
  | .xori .. => Laws.EncodingRow.xori ..
  | .slti .. => Laws.EncodingRow.slti ..
  | .sltiu .. => Laws.EncodingRow.sltiu ..
  | .slli .. => Laws.EncodingRow.slli ..
  | .srli .. => Laws.EncodingRow.srli ..
  | .srai .. => Laws.EncodingRow.srai ..
  | .lb .. => Laws.EncodingRow.lb ..
  | .lh .. => Laws.EncodingRow.lh ..
  | .lw .. => Laws.EncodingRow.lw ..
  | .lbu .. => Laws.EncodingRow.lbu ..
  | .lhu .. => Laws.EncodingRow.lhu ..
  | .sb .. => Laws.EncodingRow.sb ..
  | .sh .. => Laws.EncodingRow.sh ..
  | .sw .. => Laws.EncodingRow.sw ..
  | .jal .. => Laws.EncodingRow.jal ..
  | .jalr .. => Laws.EncodingRow.jalr ..
  | .beq .. => Laws.EncodingRow.beq ..
  | .bne .. => Laws.EncodingRow.bne ..
  | .blt .. => Laws.EncodingRow.blt ..
  | .bge .. => Laws.EncodingRow.bge ..
  | .bltu .. => Laws.EncodingRow.bltu ..
  | .bgeu .. => Laws.EncodingRow.bgeu ..
  | .ecall => Laws.EncodingRow.ecall
  | .ebreak => Laws.EncodingRow.ebreak

/-- A decoded word is the encoding of what it decodes to, so it lies in that instruction's row. -/
theorem exists_row_of_decode {raw : Word} {i : Instr} (h : decode raw = .instr i) :
    ∃ row ∈ decodeTable, raw &&& row.mask = row.pattern := by
  obtain ⟨row, hmem, -, hmatch⟩ := encodingRow i
  rw [(decode_eq_instr_iff_decodesBy.mp h).encode_eq] at hmatch
  exact ⟨row, hmem, beq_iff_eq.mp hmatch⟩

/-- Settles O3: a decoded word lies in its instruction's row, a row's words are decoded as the row says, and the rows are
apart. -/
theorem decodeTableRowsAgree : Obligations.DecodeTableRowsAgree := by
  refine ⟨rfl, fun raw => ⟨fun ⟨i, h⟩ => exists_row_of_decode h, ?decodes⟩, ?mnemonic, fun raw row hmem row' hmem' =>
    row_unique hmem hmem'⟩
  case decodes =>
    rintro ⟨row, hmem, hmatch⟩
    obtain ⟨mk, hrow, -⟩ := rowMeans_of_mem hmem
    exact ⟨mk raw, (hrow raw).mp hmatch⟩
  case mnemonic =>
    intro raw i h row hmem hmatch
    obtain ⟨mk, hrow, hname⟩ := rowMeans_of_mem hmem
    obtain rfl : mk raw = i := DecodeResult.instr.inj (((hrow raw).mp hmatch).symm.trans h)
    exact (hname raw).symm

/-! ## Words that are no instruction (R61, R72, R80) -/

/-- A word that no group decodes is IllegalEncoding, with the word (R72). -/
theorem decode_illegal_of_forall_ne {raw : Word} (h : ∀ i, ¬ DecodesBy raw i) : decode raw = .illegalEncoding raw :=
  (decode_eq_illegal_iff raw raw).mpr
    ⟨Option.eq_none_iff_forall_ne_some.mpr fun i hi => h i (decodesBy_of_decodeInstr hi), rfl⟩

/-- The opcodes of the decoder's groups (R74). -/
def groupOpcodes : List (BitVec 7) :=
  [0b0110011, 0b0010011, 0b0000011, 0b0100011, 0b1100011, 0b1101111, 0b1100111, 0b1110011]

theorem DecodesBy.opcode_mem {raw : Word} {i : Instr} (h : DecodesBy raw i) : opcode raw ∈ groupOpcodes := by
  cases h with
  | op h0 | opImm h0 | shiftImm h0 | load h0 | store h0 | branch h0 | jal h0 | jalr h0 | system h0 =>
    rw [h0]; decide

/-- The SYSTEM opcode is one group's only, and that group has two words (D3). -/
theorem DecodesBy.system_words {raw : Word} {i : Instr} (h : DecodesBy raw i) (h0 : opcode raw = 0b1110011#7) :
    raw = 0x00000073 ∨ raw = 0x00100073 := by
  have hi := h.decodeInstr_eq
  simp only [decodeInstr, h0] at hi
  exact (selectSystem_eq_some_iff.mp hi).imp And.left And.left

/-- bits[1:0] of a word, from its opcode (R61). -/
theorem lowBits_eq_lowBits_opcode (raw : Word) : raw.extractLsb' 0 2 = (opcode raw).extractLsb' 0 2 := by
  rw [opcode, BitVec.extractLsb'_extractLsb'_of_le (by decide)]

theorem decode_illegal_of_opcode {raw : Word} (h : opcode raw ∉ groupOpcodes) : decode raw = .illegalEncoding raw :=
  decode_illegal_of_forall_ne fun _ hi => h hi.opcode_mem

/-- Settles O4: an illegal word is outside the two SYSTEM words, the rows, or the groups' opcodes. -/
theorem illegalWordsAreRejected : Obligations.IllegalWordsAreRejected := by
  refine ⟨rfl, rfl, fun raw h0 hne hne' => decode_illegal_of_forall_ne fun i h => ?system,
    fun raw hrow => decode_illegal_of_forall_ne fun i h => ?noRow, fun raw hop => decode_illegal_of_opcode ?opcode,
    fun raw hlow => decode_illegal_of_opcode fun hop => hlow ?low, rfl, rfl,
    fun raw w h => ((decode_eq_illegal_iff raw w).mp h).2⟩
  case system => exact (h.system_words h0).elim hne hne'
  case noRow =>
    obtain ⟨row, hmem, hmatch⟩ := exists_row_of_decode (decode_eq_instr_iff_decodesBy.mpr h)
    exact hrow row hmem hmatch
  case opcode =>
    exact fun hgroup => (by decide : ∀ op ∈ groupOpcodes, op ∉ _) _ hgroup hop
  case low =>
    have hgroup : ∀ op ∈ groupOpcodes, op.extractLsb' 0 2 = 0b11#2 := by decide
    exact (lowBits_eq_lowBits_opcode raw).trans (hgroup _ hop)

/-! ## The immediates as numbers (R63 to R67)

The digits of the field are those of its parts; read as a signed number, its top digit counts negatively. Bit 31 of the word
is that digit. -/

theorem toNat_append_eq {m n : Nat} (a : BitVec m) (b : BitVec n) : (a ++ b).toNat = a.toNat * 2 ^ n + b.toNat := by
  rw [BitVec.toNat_append, ← Nat.shiftLeft_add_eq_or_of_lt b.isLt, Nat.shiftLeft_eq]

theorem toNat_field (raw : Word) (lo len : Nat) : (raw.extractLsb' lo len).toNat = raw.toNat / 2 ^ lo % 2 ^ len := by
  rw [BitVec.extractLsb'_toNat, Nat.shiftRight_eq_div_pow]

theorem toInt_eq_sub_sign {n : Nat} (v : BitVec (n + 1)) :
    v.toInt = v.toNat - 2 ^ (n + 1) * (v.toNat / 2 ^ n : Nat) := by
  have hlt := v.isLt
  have hpow : 2 ^ (n + 1) = 2 * 2 ^ n := Nat.pow_succ'
  rw [BitVec.toInt_eq_toNat_cond]
  split
  next hpos =>
    have hsign : v.toNat / 2 ^ n = 0 := Nat.div_eq_of_lt (by omega)
    simp [hsign]
  next hneg =>
    have hsign : v.toNat / 2 ^ n = 1 := Nat.div_eq_of_lt_le (by omega) (by omega)
    simp [hsign]

section Immediates
variable (raw : Word)

theorem toInt_immI : (immI raw).toInt = (raw.toNat / 2 ^ 20 : Nat) - 4096 * (raw.toNat / 2 ^ 31 : Nat) := by
  unfold immI
  rw [BitVec.toInt_signExtend_of_le (by decide), toInt_eq_sub_sign, toNat_field]
  omega

theorem toInt_immS : (immS raw).toInt =
    (32 * (raw.toNat / 2 ^ 25) + raw.toNat / 2 ^ 7 % 32 : Nat) - 4096 * (raw.toNat / 2 ^ 31 : Nat) := by
  unfold immS
  rw [BitVec.toInt_signExtend_of_le (by decide), toInt_eq_sub_sign, toNat_append_eq, toNat_field, toNat_field]
  omega

theorem toInt_immB : (immB raw).toInt =
    (2048 * (raw.toNat / 2 ^ 7 % 2) + 32 * (raw.toNat / 2 ^ 25 % 64) + 2 * (raw.toNat / 2 ^ 8 % 16) : Nat) -
      4096 * (raw.toNat / 2 ^ 31 : Nat) := by
  unfold immB
  rw [BitVec.toInt_signExtend_of_le (by decide), toInt_eq_sub_sign]
  simp only [toNat_append_eq, toNat_field, BitVec.toNat_zero]
  omega

theorem toInt_immJ : (immJ raw).toInt =
    (4096 * (raw.toNat / 2 ^ 12 % 256) + 2048 * (raw.toNat / 2 ^ 20 % 2) + 2 * (raw.toNat / 2 ^ 21 % 1024) : Nat) -
      1048576 * (raw.toNat / 2 ^ 31 : Nat) := by
  unfold immJ
  rw [BitVec.toInt_signExtend_of_le (by decide), toInt_eq_sub_sign]
  simp only [toNat_append_eq, toNat_field, BitVec.toNat_zero]
  omega

theorem toNat_immU : (immU raw).toNat = raw.toNat / 2 ^ 12 * 2 ^ 12 := by
  unfold immU
  rw [toNat_append_eq, toNat_field, BitVec.toNat_zero]
  omega

end Immediates

/-- Settles O6: each immediate digit by digit; the ranges are those that `fitsI` to `fitsJ` ask. -/
theorem immediatesAreTheFieldsTheWordHolds : Obligations.ImmediatesAreTheFieldsTheWordHolds := fun raw =>
  ⟨toInt_immI raw, toInt_immS raw, toInt_immB raw, toInt_immJ raw, toNat_immU raw, of_decide_eq_true (fitsI_immI raw),
    of_decide_eq_true (fitsS_immS raw), of_decide_eq_true (fitsB_immB raw), of_decide_eq_true (fitsJ_immJ raw)⟩

end Sys2Proof

/-! PROOFS. The execution engine family (40_execution_engine.md): what a step runs or raises, what a step call returns, the run
loop, and the model's helper that places a word where the next step fetches it. -/

namespace Sys2Proof.Machine

/-! ## What a step runs (R100, R101) -/

/-- Settles O7: an admitted pc answers the word of its four bytes. -/
theorem stepRunsTheDecodedInstruction : Obligations.StepRunsTheDecodedInstruction := fun _ _ hs hpc hadm hd =>
  step_of_load32 hs hpc (load32_of_admitted hadm) hd

/-- The word a load answers is the one with the four bytes' number (20_memory.md R45). -/
theorem load32_of_wordAt {m : Memory} {a raw : Word} (h : Admitted m a 4) (hraw : raw.toNat = wordAt m a.toNat) :
    m.load32 a = some raw := by
  rw [load32_of_admitted h]
  exact congrArg some (BitVec.eq_of_toNat_eq ((wordAt_eq m a.toNat).trans hraw.symm))

/-- What `State.withFetchWord` leaves: a core that can step, at an aligned pc where the placed word is read (log 4). -/
theorem State.withFetchWord_spec (s : State) (raw : Word) :
    CanStep (s.withFetchWord 32 raw.toNat) ∧ (s.withFetchWord 32 raw.toNat).pc.toNat % 4 = 0 ∧
      (s.withFetchWord 32 raw.toNat).mem.load32 (s.withFetchWord 32 raw.toNat).pc = some raw := by
  have hpc : (alignedPc s.pc).toNat % 4 = 0 := by rw [alignedPc_toNat]; omega
  have hadm : Admitted (admitWord s.mem (alignedPc s.pc)) (alignedPc s.pc) 4 :=
    (admitted_iff ..).mpr (Memory.admits_admitWord s.mem hpc)
  have hraw : BitVec.ofNat 32 (raw.toNat % 2 ^ 32) = raw := by
    rw [Nat.mod_eq_of_lt raw.isLt, BitVec.ofNat_toNat, BitVec.setWidth_eq]
  refine ⟨⟨rfl, rfl⟩, hpc, ?_⟩
  simp only [withFetchWord, placeWord, hraw, Memory.load32_setBytes hadm]

/-- Settles O45: the helper meets what a step needs, and the placed word is the one read. -/
theorem placedWordIsRunNext : Obligations.PlacedWordIsRunNext := by
  intro s raw i hd
  obtain ⟨hs, hpc, hload⟩ := s.withFetchWord_spec raw
  exact step_of_load32 hs hpc hload hd

/-! ## Fetch and decode faults (R100, R103; 60_exceptions.md R229) -/

/-- A fetch or decode that fails is raised by the step, with the pc left at ipc (R103). -/
theorem raisesFetchFault_of_fetchDecode {s : State} {r : FaultRecord} (hs : CanStep s) (h : fetchDecode s = .inr r) :
    RaisesFetchFault s r :=
  ⟨raiseFetchFault r s, by simp [step_of_canStep hs, h], rfl, rfl, SameRegs.of_regs rfl, SameMem.of_mem rfl, rfl⟩

/-- Settles O8: the three ways `fetchDecode` fails, in the order it tries them. -/
theorem fetchAndDecodeFaultsInOrder : Obligations.FetchAndDecodeFaultsInOrder := by
  intro s hs
  refine ⟨fun hpc => ?misaligned, fun hpc hadm => ?outOfBounds, fun hpc hadm raw hraw hd => ?illegal⟩ <;>
    apply raisesFetchFault_of_fetchDecode hs
  case misaligned => exact fetchDecode_of_misaligned hpc
  case outOfBounds => simp [fetchDecode_of_load hpc, load32_of_not_admitted hadm]
  case illegal => simp [fetchDecode_of_load hpc, load32_of_wordAt hadm hraw, hd]

/-! ## What a step call returns (R102, R104) -/

section StepCall
variable {s t : State}

theorem stepCall_of_next (h : step s = .next t) : stepCall s = .ok (statusOutcome t.status, t) := by
  simp [stepCall, h]

theorem stepCall_of_fault {f : Fault} (h : step s = .fault f) : stepCall s = .ok (faultOutcome f, s) := by
  simp [stepCall, h]

theorem stepCall_of_refused {r : Refusal} (h : step s = .refused r) : stepCall s = .error r := by
  simp [stepCall, h]

/-- A stopped core of the default configuration gives its stored outcome and has no successor (R104). -/
theorem step_of_stopped {f : Fault} (hc : s.config = .rv32iOnly) (h : stoppedOutcome s.status = some f) :
    step s = .fault f := by
  simp [step, hc, h]

/-- A step call on a stopped core returns its stored outcome and changes nothing; no state follows (R104). -/
theorem stopped_inert {f : Fault} (hc : s.config = .rv32iOnly) (h : stoppedOutcome s.status = some f) :
    stepCall s = .ok (faultOutcome f, s) ∧ ∀ t, step s ≠ .next t := by
  have hstep := step_of_stopped hc h
  exact ⟨stepCall_of_fault hstep, fun t ht => nomatch ht.symm.trans hstep⟩

theorem stoppedOutcome_eq_none_iff {st : Status} : stoppedOutcome st = none ↔ st = .running := by
  cases st <;> simp [stoppedOutcome]

/-- A core that can step has a successor, with the configuration kept. -/
theorem exists_step_of_canStep (hs : CanStep s) : ∃ t, step s = .next t ∧ t.config = s.config := by
  rw [step_of_canStep hs]
  cases fetchDecode s with
  | inl i =>
    obtain ⟨t, ht⟩ := exec_answers_next i s
    exact ⟨t, ht, exec_config ht⟩
  | inr r => exact ⟨_, rfl, rfl⟩

/-- The stored outcome of a stopped core is the one its status holds. -/
theorem faultOutcome_of_stopped {st : Status} {f : Fault} (h : stoppedOutcome st = some f) :
    faultOutcome f = statusOutcome st := by
  cases st <;> cases h <;> rfl

/-- A step call of a default core returns the outcome that the status then holds, and the configuration is kept. -/
theorem stepCall_of_default (hc : s.config = .rv32iOnly) :
    ∃ t, stepCall s = .ok (statusOutcome t.status, t) ∧ t.config = .rv32iOnly := by
  cases hf : stoppedOutcome s.status with
  | none =>
    obtain ⟨t, ht, hct⟩ := exists_step_of_canStep ⟨stoppedOutcome_eq_none_iff.mp hf, hc⟩
    exact ⟨t, stepCall_of_next ht, hct.trans hc⟩
  | some f => exact ⟨s, faultOutcome_of_stopped hf ▸ (stopped_inert hc hf).1, hc⟩

/-- The outcome of any step call that returns one is the one the status then holds (R102). -/
theorem outcome_of_stepCall {o : StepOutcome} (h : stepCall s = .ok (o, t)) : o = statusOutcome t.status := by
  cases hc : s.config with
  | nonDefault =>
    rw [stepCall_of_refused (nonDefaultConfigurationIsRefused s hc)] at h
    cases h
  | rv32iOnly =>
    obtain ⟨t', ht', -⟩ := stepCall_of_default hc
    cases h.symm.trans ht'
    rfl

theorem statusOutcome_eq_continued_iff {st : Status} : statusOutcome st = .continued ↔ st = .running := by
  cases st <;> simp [statusOutcome]

end StepCall

/-- Settles O9: the stored outcome is the cause and ipc, or the record, that the status holds. -/
theorem stoppedCoreIsInert : Obligations.StoppedCoreIsInert := fun _ hc =>
  ⟨fun _ _ hst => stopped_inert hc (congrArg stoppedOutcome hst),
    fun _ hst => stopped_inert hc (congrArg stoppedOutcome hst)⟩

/-- Settles O11: a default core's call returns, and every outcome returned is the final status's. -/
theorem stepOutcomeIsTheStatus : Obligations.StepOutcomeIsTheStatus := by
  refine ⟨fun s hc => ?returns, fun s t o h => ?status⟩
  case returns =>
    obtain ⟨t, ht, -⟩ := stepCall_of_default hc
    exact ⟨_, t, ht⟩
  case status =>
    obtain rfl := outcome_of_stepCall h
    exact ⟨rfl, statusOutcome_eq_continued_iff⟩

/-! ## The run loop (R105, R106) -/

/-- The condition of a run whose last step call had this outcome: a run that ends on Continued has used up its bound. -/
def StepOutcome.condition : StepOutcome → RunCondition
  | .continued => .exhausted
  | .halted cause ipc => .halted cause ipc
  | .faulted record => .faulted record

theorem StepOutcome.condition_eq_exhausted_iff {o : StepOutcome} : o.condition = .exhausted ↔ o = .continued := by
  cases o <;> simp [condition]

section RunLoop
variable {s t u : State} {n left : Nat}

/-- After a step that continues, the loop goes on with one more counted. -/
theorem runLoop_of_continued (h : stepCall s = .ok (.continued, t)) :
    runLoop n s (left + 1) = runLoop (n + 1) t left := by
  simp [runLoop, h]

/-- At a step that stops, the loop returns. -/
theorem runLoop_of_stop {o : StepOutcome} (h : stepCall s = .ok (o, t)) (ho : o ≠ .continued) :
    runLoop n s (left + 1) = .ok (⟨countAtStop n, o.condition⟩, t) := by
  cases o with
  | continued => exact absurd rfl ho
  | halted | faulted => simp [runLoop, h, StepOutcome.condition]

/-- A step call that is refused ends the loop with the refusal. -/
theorem runLoop_of_error {r : Refusal} (h : stepCall s = .error r) : runLoop n s (left + 1) = .error r := by
  simp [runLoop, h]

theorem countAtStop_le (n : Nat) : countAtStop n ≤ n + 1 := by
  unfold countAtStop; split <;> omega

theorem countAtStop_succ (n : Nat) : countAtStop (n + 1) = countAtStop n + 1 := by
  unfold countAtStop; split <;> rfl

/-- The steps counted so far only shift the count that is returned. -/
theorem runLoop_succ_count {o : RunOutcome} (h : runLoop n s left = .ok (o, u)) :
    runLoop (n + 1) s left = .ok (⟨o.count + 1, o.condition⟩, u) := by
  induction left generalizing n s with
  | zero => cases h; rfl
  | succ left ih =>
    match hstep : stepCall s with
    | .error r => rw [runLoop_of_error hstep] at h; cases h
    | .ok (so, t) =>
      by_cases hso : so = .continued
      · subst hso
        rw [runLoop_of_continued hstep] at h ⊢
        exact ih h
      · rw [runLoop_of_stop hstep hso] at h ⊢
        cases h
        rw [countAtStop_succ]

/-- A step that continues and changes nothing is repeated until the bound. -/
theorem runLoop_of_fixed (h : stepCall s = .ok (.continued, s)) (n left : Nat) :
    runLoop n s left = .ok (⟨n + left, .exhausted⟩, s) := by
  induction left generalizing n with
  | zero => rfl
  | succ left ih => rw [runLoop_of_continued h, ih, Nat.add_right_comm, Nat.add_assoc]

/-- What the loop returns on a default core. The condition is the one of the final status once a step has been made, or
when the core was running before it. -/
theorem runLoop_returns (hc : s.config = .rv32iOnly) (n left : Nat) :
    ∃ o t, runLoop n s left = .ok (o, t) ∧ o.count ≤ n + left ∧ (o.condition = .exhausted → o.count = n + left) ∧
      (s.status = .running ∨ 0 < left → o.condition = (statusOutcome t.status).condition) := by
  induction left generalizing n s with
  | zero =>
    refine ⟨⟨n, .exhausted⟩, s, rfl, le_rfl, fun _ => rfl, fun h => ?_⟩
    have hrun : s.status = .running := h.resolve_right (lt_irrefl 0)
    rw [hrun]
    rfl
  | succ left ih =>
    obtain ⟨t, ht, hct⟩ := stepCall_of_default hc
    by_cases hrun : t.status = .running
    · have hcont : stepCall s = .ok (.continued, t) := by rw [ht, statusOutcome_eq_continued_iff.mpr hrun]
      obtain ⟨o, u, hu, hle, hex, hcond⟩ := ih hct (n + 1)
      have hn : n + 1 + left = n + (left + 1) := by omega
      rw [hn] at hle hex
      exact ⟨o, u, (runLoop_of_continued hcont).trans hu, hle, hex, fun _ => hcond (.inl hrun)⟩
    · have hstop : statusOutcome t.status ≠ .continued := fun h => hrun (statusOutcome_eq_continued_iff.mp h)
      have hle : countAtStop n ≤ n + (left + 1) := (countAtStop_le n).trans (by omega)
      exact ⟨_, t, runLoop_of_stop ht hstop, hle,
        fun h => absurd (StepOutcome.condition_eq_exhausted_iff.mp h) hstop, fun _ => rfl⟩

end RunLoop

/-- Settles O41: `run` is the loop with nothing counted; the count of a run from the next state is one less. -/
theorem runIsStepsUntilBoundOrStop : Obligations.RunIsStepsUntilBoundOrStop := fun _ _ _ =>
  ⟨rfl, fun hstep _ _ hrun => (runLoop_of_continued hstep).trans (runLoop_succ_count hrun),
    fun _ _ hstep => runLoop_of_stop hstep nofun, fun _ hstep => runLoop_of_stop hstep nofun⟩

/-- Settles O42 by what the loop returns; the condition of a positive bound determines the final status. -/
theorem runReturnsWithinItsBound : Obligations.RunReturnsWithinItsBound := by
  intro s max hc
  obtain ⟨o, t, ht, hle, hex, hcond⟩ := runLoop_returns hc 0 max
  rw [Nat.zero_add] at hle hex
  refine ⟨o, t, ht, hle, hex, ?zero, fun hmax => ?positive⟩
  case zero =>
    rintro rfl
    cases ht
    exact ⟨rfl, rfl⟩
  case positive =>
    rw [hcond (.inr hmax)]
    cases t.status <;> simp [statusOutcome, StepOutcome.condition]

/-! ## The self-loop (R108) -/

/-- A branch on x0 = x0 with offset 0 leaves the whole state as it was. -/
theorem exec_beq_zero (s : State) : exec (.beq 0 0 0) s = .next s := by
  calc exec (.beq 0 0 0) s
      = branchTo (decide (s.x 0 = s.x 0)) (s.pc + 0#32) s := rfl
    _ = .next (s.setPc (s.pc + 0#32)) := by rw [decide_eq_true rfl, branchTo_true]
    _ = .next s := by rw [BitVec.add_zero]; rfl

/-- Settles O43: the step at `BEQ x0, x0, 0` continues in the same state. -/
theorem selfLoopExhaustsEveryBound : Obligations.SelfLoopExhaustsEveryBound := by
  intro s max hs hpc hadm hword
  have hd : decode 0x00000063 = .instr (.beq 0 0 0) := by decide
  have hstep : step s = .next s :=
    (step_of_load32 hs hpc (load32_of_wordAt (raw := 0x00000063#32) hadm hword.symm) hd).trans (exec_beq_zero s)
  have hcall : stepCall s = .ok (.continued, s) := by rw [stepCall_of_next hstep, hs.1]; rfl
  rw [run, runLoop_of_fixed hcall, Nat.zero_add]

end Sys2Proof.Machine

/-! PROOFS. The integer computational family (41_integer_computational.md): the three shapes of rule, each met by one row of the
decoder, one arm of `exec` that writes a result, and one equation between that result and the rule's; then the equations. -/

namespace Sys2Proof.Machine

/-! ## The shapes of rule (R120)

`hp`, `h0` and `hf` say that the rule's pattern is a row of its group; `result` is what the arm of `exec` writes, `value` what
the rule asks for. -/

section Shapes
variable {p : Word}

theorem rTypeRule_of {mk : RegIdx → RegIdx → RegIdx → Instr} {result value : Word → Word → Word}
    (hp : p &&& 0xFE00707F#32 = p) (h0 : opcode p = 0b0110011#7) (hf : selectOp (funct7 p) (funct3 p) = some mk)
    (hvalue : ∀ a b, result a b = value a b)
    (hexec : ∀ rd rs1 rs2 s, exec (mk rd rs1 rs2) s = writeResult rd (result (s.x rs1) (s.x rs2)) s) :
    RTypeRule p mk value :=
  ⟨rowDecodes_op hp h0 hf, fun rd rs1 rs2 s => hvalue _ _ ▸ writesResult_of_eq (hexec rd rs1 rs2 s)⟩

theorem iTypeRule_of {mk : RegIdx → RegIdx → Word → Instr} {result value : Word → Word → Word}
    (hp : p &&& 0x707F#32 = p) (h0 : opcode p = 0b0010011#7) (hf : selectOpImm (funct3 p) = some mk)
    (hvalue : ∀ a imm, result a imm = value a imm)
    (hexec : ∀ rd rs1 imm s, exec (mk rd rs1 imm) s = writeResult rd (result (s.x rs1) imm) s) :
    ITypeRule p mk value :=
  ⟨rowDecodes_opImm hp h0 hf, fun rd rs1 imm s => hvalue _ _ ▸ writesResult_of_eq (hexec rd rs1 imm s)⟩

theorem shiftImmRule_of {mk : RegIdx → RegIdx → Shamt → Instr} {result value : Word → Nat → Word}
    (hp : p &&& 0xFE00707F#32 = p) (h0 : opcode p = 0b0010011#7) (hf : selectShiftImm (funct7 p) (funct3 p) = some mk)
    (hvalue : ∀ a k, result a k = value a k)
    (hexec : ∀ rd rs1 shamt s, exec (mk rd rs1 shamt) s = writeResult rd (result (s.x rs1) shamt.toNat) s) :
    ShiftImmRule p mk value :=
  ⟨rowDecodes_shiftImm hp h0 hf, fun rd rs1 shamt s => hvalue _ _ ▸ writesResult_of_eq (hexec rd rs1 shamt s)⟩

end Shapes

/-! ## Results as numbers (00_scope.md R12) -/

section Results
variable (a b : Word)

theorem add_eq_ofInt : a + b = BitVec.ofInt 32 (a.toInt + b.toInt) := by
  rw [BitVec.ofInt_add, BitVec.ofInt_toInt, BitVec.ofInt_toInt]

theorem sub_eq_ofInt : a - b = BitVec.ofInt 32 ((a.toNat : Int) - b.toNat) := by
  rw [Int.sub_eq_add_neg, BitVec.ofInt_add, BitVec.ofInt_neg, BitVec.ofInt_natCast, BitVec.ofInt_natCast,
    BitVec.ofNat_toNat, BitVec.ofNat_toNat, BitVec.setWidth_eq, BitVec.setWidth_eq, BitVec.sub_eq_add_neg]

theorem conditionWord_lessSigned : conditionWord (lessSigned a b) = if a.toInt < b.toInt then 1 else 0 := by
  simp only [conditionWord, lessSigned, decide_eq_true_eq]

theorem conditionWord_lessUnsigned : conditionWord (lessUnsigned a b) = if a.toNat < b.toNat then 1 else 0 := by
  simp only [conditionWord, lessUnsigned, decide_eq_true_eq]

theorem shiftLeft_eq_ofNat (k : Nat) : a <<< k = BitVec.ofNat 32 (a.toNat * 2 ^ k) := by
  apply BitVec.eq_of_toNat_eq
  rw [BitVec.toNat_shiftLeft, BitVec.toNat_ofNat, Nat.shiftLeft_eq]

theorem ushiftRight_eq_ofNat (k : Nat) : a >>> k = BitVec.ofNat 32 (a.toNat / 2 ^ k) := by
  rw [← Nat.shiftRight_eq_div_pow, ← BitVec.toNat_ushiftRight, BitVec.ofNat_toNat, BitVec.setWidth_eq]

/-! The same with the amount a register gives: its value modulo 32 (R128 to R130). -/

theorem shiftLeft_shiftAmount : a <<< shiftAmount b = BitVec.ofNat 32 (a.toNat * 2 ^ (b.toNat % 32)) := by
  rw [shiftAmount_eq, shiftLeft_eq_ofNat]

theorem ushiftRight_shiftAmount : a >>> shiftAmount b = BitVec.ofNat 32 (a.toNat / 2 ^ (b.toNat % 32)) := by
  rw [shiftAmount_eq, ushiftRight_eq_ofNat]

theorem sshiftRight_shiftAmount : a.sshiftRight (shiftAmount b) = BitVec.ofInt 32 (a.toInt / 2 ^ (b.toNat % 32)) := by
  rw [shiftAmount_eq, sshiftRight_eq_div]

end Results

/-! ## The rules -/

/-- Settles O14: a sum or difference of words is that of the numbers they stand for, modulo 2^32. -/
theorem addSubRules : Obligations.AddSubRules :=
  ⟨rTypeRule_of rfl rfl rfl BitVec.add_def fun _ _ _ _ => rfl,
    rTypeRule_of rfl rfl rfl sub_eq_ofInt fun _ _ _ _ => rfl,
    iTypeRule_of rfl rfl rfl add_eq_ofInt fun _ _ _ _ => rfl⟩

/-- Settles O15: the arms write the bitwise results as they stand. -/
theorem bitwiseRules : Obligations.BitwiseRules :=
  ⟨rTypeRule_of rfl rfl rfl (fun _ _ => rfl) fun _ _ _ _ => rfl,
    rTypeRule_of rfl rfl rfl (fun _ _ => rfl) fun _ _ _ _ => rfl,
    rTypeRule_of rfl rfl rfl (fun _ _ => rfl) fun _ _ _ _ => rfl,
    iTypeRule_of rfl rfl rfl (fun _ _ => rfl) fun _ _ _ _ => rfl,
    iTypeRule_of rfl rfl rfl (fun _ _ => rfl) fun _ _ _ _ => rfl,
    iTypeRule_of rfl rfl rfl (fun _ _ => rfl) fun _ _ _ _ => rfl⟩

/-- Settles O16: `conditionWord` of a comparison is 1 or 0 as the comparison of the numbers holds or not. -/
theorem compareRules : Obligations.CompareRules :=
  ⟨rTypeRule_of rfl rfl rfl conditionWord_lessSigned fun _ _ _ _ => rfl,
    rTypeRule_of rfl rfl rfl conditionWord_lessUnsigned fun _ _ _ _ => rfl,
    iTypeRule_of rfl rfl rfl conditionWord_lessSigned fun _ _ _ _ => rfl,
    iTypeRule_of rfl rfl rfl conditionWord_lessUnsigned fun _ _ _ _ => rfl⟩

/-- Settles O17: a shift by a number is a product or quotient by a power of two; the number is the register's value modulo 32
or the field. -/
theorem shiftRules : Obligations.ShiftRules :=
  ⟨rTypeRule_of rfl rfl rfl shiftLeft_shiftAmount fun _ _ _ _ => rfl,
    rTypeRule_of rfl rfl rfl ushiftRight_shiftAmount fun _ _ _ _ => rfl,
    rTypeRule_of rfl rfl rfl sshiftRight_shiftAmount fun _ _ _ _ => rfl,
    shiftImmRule_of rfl rfl rfl shiftLeft_eq_ofNat fun _ _ _ _ => rfl,
    shiftImmRule_of rfl rfl rfl ushiftRight_eq_ofNat fun _ _ _ _ => rfl,
    shiftImmRule_of rfl rfl rfl sshiftRight_eq_div fun _ _ _ _ => rfl⟩

end Sys2Proof.Machine

/-! PROOFS. The load and store family (42_load_store.md): the rule of a load or of a store, met by one row of the decoder, one arm
of `exec` and one operation of the interface; then a store and the loads after it, from the rules alone. -/

namespace Sys2Proof.Machine

/-! ## What a load reads (R160 to R165) -/

/-- `read` answers `value` of the bytes from the address on when all `n` of them are admitted, and nothing otherwise. -/
def LoadAnswers (read : Word → State → Option Word) (n : Nat) (value : Memory → Nat → Word) : Prop :=
  ∀ (a : Word) (s : State),
    (Admitted s.mem a n → read a s = some (value s.mem a.toNat)) ∧ (¬ Admitted s.mem a n → read a s = none)

/-- A byte read and widened (20_memory.md R45). -/
theorem loadAnswers_load8 {widen : Byte → Word} {value : Memory → Nat → Word}
    (hvalue : ∀ m a, widen (m.byteAt a) = value m a) :
    LoadAnswers (fun a s => (s.mem.load8 a).map widen) 1 value := fun a s =>
  ⟨fun h => by simp [load8_of_admitted h, hvalue], fun h => by simp [load8_of_not_admitted h]⟩

/-- A half-word read and widened (20_memory.md R45). -/
theorem loadAnswers_load16 {widen : Half → Word} {value : Memory → Nat → Word}
    (hvalue : ∀ m a, widen (m.byteAt (a + 1) ++ m.byteAt a) = value m a) :
    LoadAnswers (fun a s => (s.mem.load16 a).map widen) 2 value := fun a s =>
  ⟨fun h => by simp [load16_of_admitted h, hvalue], fun h => by simp [load16_of_not_admitted h]⟩

theorem loadAnswers_loadByteSigned :
    LoadAnswers loadByteSigned 1 fun m a => widenSigned 8 (m.byteAt a).toNat :=
  loadAnswers_load8 fun _ _ => signExtend_eq_widenSigned _ (by decide) (by decide)

theorem loadAnswers_loadByteUnsigned :
    LoadAnswers loadByteUnsigned 1 fun m a => BitVec.ofNat 32 (m.byteAt a).toNat :=
  loadAnswers_load8 fun _ _ => (BitVec.ofNat_toNat ..).symm

theorem loadAnswers_loadHalfSigned : LoadAnswers loadHalfSigned 2 fun m a => widenSigned 16 (halfAt m a) :=
  loadAnswers_load16 fun m a => halfAt_eq m a ▸ signExtend_eq_widenSigned _ (by decide) (by decide)

theorem loadAnswers_loadHalfUnsigned : LoadAnswers loadHalfUnsigned 2 fun m a => BitVec.ofNat 32 (halfAt m a) :=
  loadAnswers_load16 fun m a => halfAt_eq m a ▸ (BitVec.ofNat_toNat ..).symm

theorem loadAnswers_loadWord : LoadAnswers loadWord 4 fun m a => BitVec.ofNat 32 (wordAt m a) := fun a s =>
  ⟨fun h => (load32_of_admitted h).trans (by simp [← wordAt_eq]), load32_of_not_admitted⟩

/-! ## The shapes of rule (R160, R166)

`hp`, `h0` and `hf` say that the rule's pattern is a row of its group; `hexec` is the instruction's arm of `exec`. -/

section Shapes
variable {p : Word} {mk : RegIdx → RegIdx → Word → Instr} {n : Nat} {read : Word → State → Option Word}
  {value : Memory → Nat → Word} {store : Memory → Word → Word → Option Memory}

theorem loadRule_of (hp : p &&& 0x707F#32 = p) (h0 : opcode p = 0b0000011#7) (hf : selectLoad (funct3 p) = some mk)
    (hread : LoadAnswers read n value)
    (hexec : ∀ rd rs1 imm s, exec (mk rd rs1 imm) s = loadInto rd (s.x rs1 + imm) n (read (s.x rs1 + imm) s) s) :
    LoadRule p mk n value := by
  refine ⟨rowDecodes_load hp h0 hf, fun rd rs1 imm s ha => ?_⟩
  obtain ⟨hvalue, hnone⟩ := hread (s.x rs1 + imm) s
  constructor <;> intro hadm
  · exact writesResult_of_eq (by rw [hexec, hvalue hadm, loadInto_value ha])
  · exact raisesDataFault_of_eq (by rw [hexec, hnone hadm, loadInto_outOfBounds ha])

theorem loadAlignRule_of
    (hexec : ∀ rd rs1 imm s, exec (mk rd rs1 imm) s = loadInto rd (s.x rs1 + imm) n (read (s.x rs1 + imm) s) s) :
    LoadAlignRule mk n := fun rd rs1 imm s ha =>
  raisesDataFault_of_eq ((hexec rd rs1 imm s).trans (loadInto_misaligned ha _))

theorem storeRule_of (hp : p &&& 0x707F#32 = p) (h0 : opcode p = 0b0100011#7) (hf : selectStore (funct3 p) = some mk)
    (hstore : (n, store) ∈ [(1, Memory.store8), (2, Memory.store16), (4, Memory.store32)])
    (hexec : ∀ rs1 rs2 imm s,
      exec (mk rs1 rs2 imm) s = storeTo (s.x rs1 + imm) n (store s.mem (s.x rs1 + imm) (s.x rs2)) s) :
    StoreRule p mk n := by
  refine ⟨rowDecodes_store hp h0 hf, fun rs1 rs2 imm s ha => ?_⟩
  rw [admitted_iff]
  constructor <;> intro hadm
  · exact storesBytes_of_eq (by rw [hexec, Memory.store_eq hstore, if_pos hadm, storeTo_written ha])
  · exact raisesDataFault_of_eq (by rw [hexec, Memory.store_eq hstore, if_neg hadm, storeTo_outOfBounds ha])

theorem storeAlignRule_of
    (hexec : ∀ rs1 rs2 imm s,
      exec (mk rs1 rs2 imm) s = storeTo (s.x rs1 + imm) n (store s.mem (s.x rs1 + imm) (s.x rs2)) s) :
    StoreAlignRule mk n := fun rs1 rs2 imm s ha =>
  raisesDataFault_of_eq ((hexec rs1 rs2 imm s).trans (storeTo_misaligned ha _))

end Shapes

/-! ## The rules -/

/-- Settles O18: the byte read, widened with its sign or with zeros. -/
theorem byteLoadRules : Obligations.ByteLoadRules :=
  ⟨loadRule_of rfl rfl rfl loadAnswers_loadByteSigned fun _ _ _ _ => rfl,
    loadRule_of rfl rfl rfl loadAnswers_loadByteUnsigned fun _ _ _ _ => rfl⟩

/-- Settles O19: the half-word read, widened with its sign or with zeros; the alignment is asked before the memory. -/
theorem halfLoadRules : Obligations.HalfLoadRules :=
  ⟨loadRule_of rfl rfl rfl loadAnswers_loadHalfSigned fun _ _ _ _ => rfl,
    loadAlignRule_of (read := loadHalfSigned) fun _ _ _ _ => rfl,
    loadRule_of rfl rfl rfl loadAnswers_loadHalfUnsigned fun _ _ _ _ => rfl,
    loadAlignRule_of (read := loadHalfUnsigned) fun _ _ _ _ => rfl⟩

/-- Settles O20: the word read as it stands. -/
theorem wordLoadRule : Obligations.WordLoadRule :=
  ⟨loadRule_of rfl rfl rfl loadAnswers_loadWord fun _ _ _ _ => rfl,
    loadAlignRule_of (read := loadWord) fun _ _ _ _ => rfl⟩

/-- Settles O21: each store is the interface's store of its width. -/
theorem storeRules : Obligations.StoreRules :=
  ⟨storeRule_of (store := Memory.store8) rfl rfl rfl (by simp) fun _ _ _ _ => rfl,
    storeRule_of (store := Memory.store16) rfl rfl rfl (by simp) fun _ _ _ _ => rfl,
    storeAlignRule_of (store := Memory.store16) fun _ _ _ _ => rfl,
    storeRule_of (store := Memory.store32) rfl rfl rfl (by simp) fun _ _ _ _ => rfl,
    storeAlignRule_of (store := Memory.store32) fun _ _ _ _ => rfl⟩

/-! ## Stored bytes read back (20_memory.md R45 to R47) -/

/-- A number below a modulus that is at most 2^32 is read back from the word it makes. -/
theorem toNat_ofNat_mod {x b : Nat} (hb : 0 < b ∧ b ≤ 2 ^ 32) : (BitVec.ofNat 32 (x % b)).toNat = x % b := by
  obtain ⟨hpos, hle⟩ := hb
  exact (BitVec.toNat_ofNat ..).trans (Nat.mod_eq_of_lt ((Nat.mod_lt x hpos).trans_le hle))

section ReadBack
variable {s t : State} {a n k : Nat} {v : Word}

/-- Two neighbours of the stored bytes, composed: 16 bits of the value. -/
theorem StoredBytes.halfAt_eq (h : StoredBytes s t a n v) (hk : k + 2 ≤ n) :
    halfAt t.mem (a + k) = v.toNat / 2 ^ (8 * k) % 65536 := by
  obtain ⟨-, hbytes, -⟩ := h
  have hlow := hbytes k (by omega)
  have hhigh := hbytes (k + 1) (by omega)
  have hshift : v.toNat / 2 ^ (8 * (k + 1)) = v.toNat / 2 ^ (8 * k) / 256 := by
    rw [Nat.mul_succ, pow_add, ← Nat.div_div_eq_div_mul, (by decide : 2 ^ 8 = 256)]
  rw [halfAt, Nat.add_assoc, hlow, hhigh, hshift]
  omega

/-- The one byte stored: the low 8 bits of the value. -/
theorem StoredBytes.byteAt_eq (h : StoredBytes s t a 1 v) : (t.mem.byteAt a).toNat = v.toNat % 256 := by
  obtain ⟨-, hbytes, -⟩ := h
  simpa using hbytes 0 (by decide)

theorem StoredBytes.byteAt_of_ne (h : StoredBytes s t a 1 v) {b : Nat} (hb : b ≠ a) : t.mem.byteAt b = s.mem.byteAt b := by
  obtain ⟨-, -, hkept⟩ := h
  exact hkept b (by omega)

/-- The four bytes stored, composed: the value. -/
theorem StoredBytes.wordAt_eq (h : StoredBytes s t a 4 v) : wordAt t.mem a = v.toNat := by
  have hlow : halfAt t.mem a = v.toNat % 65536 := by simpa using h.halfAt_eq (k := 0) (by decide)
  have hhigh : halfAt t.mem (a + 2) = v.toNat / 65536 % 65536 := h.halfAt_eq (by decide)
  have hv := v.isLt
  rw [wordAt, hlow, hhigh]
  omega

/-- Bytes stored one by one at neighbouring addresses, composed: the first is the lowest. -/
theorem wordAt_of_storedBytes {t0 t1 t2 t3 : State} {v0 v1 v2 v3 : Word} (h0 : StoredBytes s t0 a 1 v0)
    (h1 : StoredBytes t0 t1 (a + 1) 1 v1) (h2 : StoredBytes t1 t2 (a + 2) 1 v2) (h3 : StoredBytes t2 t3 (a + 3) 1 v3) :
    wordAt t3.mem a =
      v0.toNat % 256 + 256 * (v1.toNat % 256) + 65536 * (v2.toNat % 256) + 16777216 * (v3.toNat % 256) := by
  have e0 : t3.mem.byteAt a = t0.mem.byteAt a := by
    rw [h3.byteAt_of_ne (by omega), h2.byteAt_of_ne (by omega), h1.byteAt_of_ne (by omega)]
  have e1 : t3.mem.byteAt (a + 1) = t1.mem.byteAt (a + 1) := by
    rw [h3.byteAt_of_ne (by omega), h2.byteAt_of_ne (by omega)]
  have e2 : t3.mem.byteAt (a + 2) = t2.mem.byteAt (a + 2) := h3.byteAt_of_ne (by omega)
  rw [wordAt, halfAt, halfAt, e0, e1, e2, h0.byteAt_eq, h1.byteAt_eq, h2.byteAt_eq, h3.byteAt_eq]
  omega

end ReadBack

/-! ## Stores and loads in a row

What a row of stores keeps (`StoreFrame`) is enough for the next one, and for a load, to address and be admitted as in the first
state. -/

/-- The registers and MEM_ADMIT of `t` are those of `s`. -/
structure StoreFrame (s t : State) : Prop where
  regs : SameRegs s t
  windows : t.mem.windows = s.mem.windows

theorem StoreFrame.refl (s : State) : StoreFrame s s := ⟨fun _ => rfl, rfl⟩

section Row
variable {s t : State} {rd rs1 rs2 : RegIdx} {imm p : Word} {n : Nat} {mk : RegIdx → RegIdx → Word → Instr}
  {value : Memory → Nat → Word}

theorem StoreFrame.admitted (h : StoreFrame s t) {a : Word} (hadm : Admitted s.mem a n) : Admitted t.mem a n :=
  fun k hk => by simpa [Memory.admitsByte, h.windows] using hadm k hk

/-- A store after a row of stores (R166). -/
theorem StoreRule.exists_next (hrule : StoreRule p mk n) (hst : StoreFrame s t) (ha : (s.x rs1 + imm).toNat % n = 0)
    (hadm : Admitted s.mem (s.x rs1 + imm) n) :
    ∃ t', exec (mk rs1 rs2 imm) t = .next t' ∧ StoreFrame s t' ∧
      StoredBytes t t' (s.x rs1 + imm).toNat n (s.x rs2) := by
  rw [← hst.regs rs1] at ha hadm ⊢
  obtain ⟨-, hrule⟩ := hrule
  obtain ⟨t', hexec, hbytes, hregs, -⟩ := (hrule rs1 rs2 imm t ha).1 (hst.admitted hadm)
  have ⟨hwindows, _⟩ := hbytes
  have hframe : StoreFrame s t' := ⟨fun r => (hregs r).trans (hst.regs r), hwindows.trans hst.windows⟩
  exact ⟨t', hexec, hframe, hst.regs rs2 ▸ hbytes⟩

/-- A load after a row of stores (R160). -/
theorem LoadRule.exists_next (hrule : LoadRule p mk n value) (hrd : rd ≠ 0) (hst : StoreFrame s t)
    (ha : (s.x rs1 + imm).toNat % n = 0) (hadm : Admitted s.mem (s.x rs1 + imm) n) :
    ∃ u, exec (mk rd rs1 imm) t = .next u ∧ u.x rd = value t.mem (s.x rs1 + imm).toNat := by
  rw [← hst.regs rs1] at ha hadm ⊢
  obtain ⟨-, hrule⟩ := hrule
  obtain ⟨u, hexec, ⟨hx, -⟩, -⟩ := (hrule rd rs1 imm t ha).1 (hst.admitted hadm)
  exact ⟨u, hexec, hx.trans (if_neg hrd)⟩

end Row

/-- Settles O25: each load composes the bytes that the store of its width wrote at the same address. -/
theorem storeThenLoadRoundTrips : Obligations.StoreThenLoadRoundTrips := by
  obtain ⟨-, hlbu⟩ := byteLoadRules
  obtain ⟨hlh, -, hlhu, -⟩ := halfLoadRules
  obtain ⟨hlw, -⟩ := wordLoadRule
  obtain ⟨hsb, hsh, -, hsw, -⟩ := storeRules
  intro s rd rs1 rs2 imm hrd
  have hs := StoreFrame.refl s
  refine ⟨fun ha hadm => ?word, fun hadm => ?byte, fun ha hadm => ?half⟩
  case word =>
    obtain ⟨t, ht, hst, hbytes⟩ := hsw.exists_next (rs2 := rs2) hs ha hadm
    obtain ⟨u, hu, hx⟩ := hlw.exists_next hrd hst ha hadm
    exact ⟨t, u, ht, hu, by rw [hx, hbytes.wordAt_eq, BitVec.ofNat_toNat, BitVec.setWidth_eq]⟩
  case byte =>
    obtain ⟨t, ht, hst, hbytes⟩ := hsb.exists_next (rs2 := rs2) hs (Nat.mod_one _) hadm
    obtain ⟨u, hu, hx⟩ := hlbu.exists_next hrd hst (Nat.mod_one _) hadm
    exact ⟨t, u, ht, hu, by rw [hx, hbytes.byteAt_eq, toNat_ofNat_mod (by decide)]⟩
  case half =>
    obtain ⟨t, ht, hst, hbytes⟩ := hsh.exists_next (rs2 := rs2) hs ha hadm
    obtain ⟨u, hu, hxu⟩ := hlhu.exists_next hrd hst ha hadm
    obtain ⟨w, hw, hxw⟩ := hlh.exists_next hrd hst ha hadm
    have hhalf : halfAt t.mem (s.x rs1 + imm).toNat = (s.x rs2).toNat % 65536 := by
      simpa using hbytes.halfAt_eq (k := 0) (by decide)
    exact ⟨t, u, w, ht, hu, hw, by rw [hxu, hhalf, toNat_ofNat_mod (by decide)], by rw [hxw, hhalf]⟩

/-- An access inside an aligned and admitted word (R49, R171): its address does not wrap, and it is aligned and admitted. -/
theorem offset_in_word {m : Memory} {a : Word} {n k : Nat} (ha : a.toNat % 4 = 0) (hadm : Admitted m a 4)
    (hk : n ∣ 4 ∧ n ∣ k ∧ k + n ≤ 4) :
    (a + BitVec.ofNat 32 k).toNat = a.toNat + k ∧ (a + BitVec.ofNat 32 k).toNat % n = 0 ∧
      Admitted m (a + BitVec.ofNat 32 k) n := by
  obtain ⟨hn4, hnk, hle⟩ := hk
  have hpos : 0 < n := Nat.pos_of_dvd_of_pos hn4 (by decide)
  have htop : a.toNat + 4 ≤ 2 ^ 32 := aligned_add_le (by decide) ha
  have hval : (a + BitVec.ofNat 32 k).toNat = a.toNat + k := by
    rw [BitVec.toNat_add, BitVec.toNat_ofNat]
    omega
  have hdvd : n ∣ a.toNat + k := dvd_add (hn4.trans (Nat.dvd_of_mod_eq_zero ha)) hnk
  refine ⟨hval, hval ▸ Nat.mod_eq_zero_of_dvd hdvd, fun j hj => ?_⟩
  rw [hval, Nat.add_assoc]
  exact hadm (k + j) (by omega)

section WordRow
variable {s t : State} {rd rs1 rs2 : RegIdx} {imm p : Word} {n k : Nat} {mk : RegIdx → RegIdx → Word → Instr}
  {value : Memory → Nat → Word}

/-- A store inside an aligned and admitted word, after a row of stores (R171). -/
theorem StoreRule.exists_next_offset (hrule : StoreRule p mk n) (hst : StoreFrame s t)
    (ha : (s.x rs1 + imm).toNat % 4 = 0) (hadm : Admitted s.mem (s.x rs1 + imm) 4)
    (hk : n ∣ 4 ∧ n ∣ k ∧ k + n ≤ 4) :
    ∃ t', exec (mk rs1 rs2 (imm + BitVec.ofNat 32 k)) t = .next t' ∧ StoreFrame s t' ∧
      StoredBytes t t' ((s.x rs1 + imm).toNat + k) n (s.x rs2) := by
  obtain ⟨hval, ha', hadm'⟩ := offset_in_word ha hadm hk
  rw [BitVec.add_assoc] at hval ha' hadm'
  exact hval ▸ hrule.exists_next hst ha' hadm'

/-- A load inside an aligned and admitted word, after a row of stores (R171). -/
theorem LoadRule.exists_next_offset (hrule : LoadRule p mk n value) (hrd : rd ≠ 0) (hst : StoreFrame s t)
    (ha : (s.x rs1 + imm).toNat % 4 = 0) (hadm : Admitted s.mem (s.x rs1 + imm) 4)
    (hk : n ∣ 4 ∧ n ∣ k ∧ k + n ≤ 4) :
    ∃ u, exec (mk rd rs1 (imm + BitVec.ofNat 32 k)) t = .next u ∧
      u.x rd = value t.mem ((s.x rs1 + imm).toNat + k) := by
  obtain ⟨hval, ha', hadm'⟩ := offset_in_word ha hadm hk
  rw [BitVec.add_assoc] at hval ha' hadm'
  exact hval ▸ hrule.exists_next hrd hst ha' hadm'

end WordRow

/-- Settles O26: the narrow loads read parts of the bytes SW wrote; LW composes the bytes that four SB wrote. -/
theorem mixedWidthsComposeLittleEndian : Obligations.MixedWidthsComposeLittleEndian := by
  obtain ⟨-, hlbu⟩ := byteLoadRules
  obtain ⟨-, -, hlhu, -⟩ := halfLoadRules
  obtain ⟨hlw, -⟩ := wordLoadRule
  obtain ⟨hsb, -, -, hsw, -⟩ := storeRules
  intro s rd rs1 imm hrd ha hadm
  have hs := StoreFrame.refl s
  refine ⟨fun rs2 => ?wordStored, fun r0 r1 r2 r3 => ?bytesStored⟩
  case wordStored =>
    obtain ⟨t, ht, hst, hbytes⟩ := hsw.exists_next (rs2 := rs2) hs ha hadm
    have ⟨_, hbyte, _⟩ := hbytes
    refine ⟨t, ht, fun k hk => ?byte, fun j hj => ?half⟩
    case byte =>
      obtain ⟨u, hu, hx⟩ := hlbu.exists_next_offset hrd hst ha hadm ⟨one_dvd 4, one_dvd k, hk⟩
      exact ⟨u, hu, by rw [hx, hbyte k hk, toNat_ofNat_mod (by decide)]⟩
    case half =>
      obtain ⟨u, hu, hx⟩ :=
        hlhu.exists_next_offset hrd hst ha hadm ⟨by decide, Nat.dvd_mul_right 2 j, by omega⟩
      have hbits : 8 * (2 * j) = 16 * j := by omega
      exact ⟨u, hu, by rw [hx, hbytes.halfAt_eq (by omega), hbits, toNat_ofNat_mod (by decide)]⟩
  case bytesStored =>
    obtain ⟨t0, ht0, hst0, h0⟩ := hsb.exists_next (rs2 := r0) hs (Nat.mod_one _) (hadm.mono (by decide))
    obtain ⟨t1, ht1, hst1, h1⟩ := hsb.exists_next_offset (rs2 := r1) (k := 1) hst0 ha hadm (by decide)
    obtain ⟨t2, ht2, hst2, h2⟩ := hsb.exists_next_offset (rs2 := r2) (k := 2) hst1 ha hadm (by decide)
    obtain ⟨t3, ht3, hst3, h3⟩ := hsb.exists_next_offset (rs2 := r3) (k := 3) hst2 ha hadm (by decide)
    obtain ⟨u, hu, hx⟩ := hlw.exists_next hrd hst3 ha hadm
    refine ⟨t0, t1, t2, t3, u, ht0, ht1, ht2, ht3, hu, ?_⟩
    rw [hx, wordAt_of_storedBytes h0 h1 h2 h3, BitVec.toNat_ofNat]
    omega

end Sys2Proof.Machine

/-! PROOFS. The control transfer family (43_control_transfer.md): the rule of a jump or of a branch, met by one row of the decoder
and one arm of `exec`; then, from the rules, how a control transfer completes and how far it goes. -/

namespace Sys2Proof.Machine

/-! ## The rules (R182 to R189) -/

/-- JALR's target as a number: x[rs1] + imm with bit 0 cleared (R183). -/
theorem registerTarget_eq_ofNat (rs1 : RegIdx) (imm : Word) (s : State) :
    registerTarget rs1 imm s = BitVec.ofNat 32 ((s.x rs1 + imm).toNat / 2 * 2) := by
  rw [← registerTarget_toNat, BitVec.ofNat_toNat, BitVec.setWidth_eq]

/-- Settles O28: both link and go to their target at once; JALR's is the sum with bit 0 cleared. -/
theorem jumpRules : Obligations.JumpRules :=
  ⟨rowDecodes_jal rfl rfl, fun _ _ _ => jumpsTo_of_eq rfl, rowDecodes_jalr rfl rfl rfl,
    fun _ rs1 imm s => registerTarget_eq_ofNat rs1 imm s ▸ jumpsTo_of_eq rfl⟩

/-- A branch's rule from its row of the decoder (`hp`, `h0`, `hf`) and its arm of `exec`, whose condition `cond` decides
`taken` (R180). -/
theorem branchRule_of {p : Word} {mk : RegIdx → RegIdx → Word → Instr} {cond : Word → Word → Bool}
    {taken : Word → Word → Prop} (hp : p &&& 0x707F#32 = p) (h0 : opcode p = 0b1100011#7)
    (hf : selectBranch (funct3 p) = some mk) (hcond : ∀ a b, cond a b = true ↔ taken a b)
    (hexec : ∀ rs1 rs2 imm s, exec (mk rs1 rs2 imm) s = branchTo (cond (s.x rs1) (s.x rs2)) (s.pc + imm) s) :
    BranchRule p mk taken := by
  refine ⟨rowDecodes_branch hp h0 hf, fun rs1 rs2 imm s => ?_⟩
  rw [← hcond]
  constructor <;> intro htaken
  · exact goesTo_of_eq (by rw [hexec, htaken, branchTo_true])
  · exact goesTo_of_eq (by rw [hexec, Bool.eq_false_of_not_eq_true htaken, branchTo_false])

section Conditions
variable (a b : Word)

theorem lessSigned_iff : lessSigned a b = true ↔ a.toInt < b.toInt := decide_eq_true_iff

theorem lessUnsigned_iff : lessUnsigned a b = true ↔ a.toNat < b.toNat := decide_eq_true_iff

theorem not_lessSigned_iff : (!lessSigned a b) = true ↔ a.toInt ≥ b.toInt := by
  rw [Bool.not_eq_true', ← Bool.not_eq_true, lessSigned_iff, ge_iff_le, not_lt]

theorem not_lessUnsigned_iff : (!lessUnsigned a b) = true ↔ a.toNat ≥ b.toNat := by
  rw [Bool.not_eq_true', ← Bool.not_eq_true, lessUnsigned_iff, ge_iff_le, not_lt]

end Conditions

/-- Settles O29: the arms decide equality and its negation. -/
theorem equalityBranchRules : Obligations.EqualityBranchRules :=
  ⟨branchRule_of rfl rfl rfl (fun _ _ => decide_eq_true_iff) fun _ _ _ _ => rfl,
    branchRule_of rfl rfl rfl (fun _ _ => decide_eq_true_iff) fun _ _ _ _ => rfl⟩

/-- Settles O30: the arms decide the order of the numbers and its negation. -/
theorem orderBranchRules : Obligations.OrderBranchRules :=
  ⟨branchRule_of rfl rfl rfl lessSigned_iff fun _ _ _ _ => rfl,
    branchRule_of rfl rfl rfl not_lessSigned_iff fun _ _ _ _ => rfl,
    branchRule_of rfl rfl rfl lessUnsigned_iff fun _ _ _ _ => rfl,
    branchRule_of rfl rfl rfl not_lessUnsigned_iff fun _ _ _ _ => rfl⟩

/-! ## A control transfer completes (R181) -/

section Completes
variable {i : Instr} {s t : State} {rd : RegIdx} {target : Word}

/-- It answers a next state with status and configuration kept and, where it has a destination, the link ipc + 4 in it. -/
def CompletesWithLink (i : Instr) (s : State) : Prop :=
  ∃ t, exec i s = .next t ∧ t.status = s.status ∧ t.config = s.config ∧ ∀ rd, i.dest = some rd → OnlyReg s t rd (s.pc + 4)

theorem JumpsTo.completesWithLink (h : JumpsTo i s rd target) (hd : i.dest = some rd) : CompletesWithLink i s := by
  obtain ⟨t, hexec, hlink, -, -, hstatus, hconfig⟩ := h
  refine ⟨t, hexec, hstatus, hconfig, fun rd' hd' => ?_⟩
  obtain rfl : rd = rd' := Option.some.inj (hd.symm.trans hd')
  exact hlink

theorem GoesTo.completesWithLink (h : GoesTo i s target) (hd : i.dest = none) : CompletesWithLink i s := by
  obtain ⟨t, hexec, -, -, -, hstatus, hconfig⟩ := h
  exact ⟨t, hexec, hstatus, hconfig, fun rd' hd' => nomatch hd.symm.trans hd'⟩

theorem completesWithLink_of_isControlTransfer (hi : i.isControlTransfer = true) (s : State) : CompletesWithLink i s := by
  obtain ⟨-, hjal, -, hjalr⟩ := jumpRules
  cases i with
  | jal rd imm => exact (hjal rd imm s).completesWithLink rfl
  | jalr rd rs1 imm => exact (hjalr rd rs1 imm s).completesWithLink rfl
  | beq | bne | blt | bge | bltu | bgeu => exact (goesTo_of_eq rfl).completesWithLink rfl
  | _ => cases hi

/-- A well-formed instruction at an even pc leaves an even pc, whichever effect it has. -/
theorem exec_pc_even (hwf : i.wellFormed = true) (hpc : s.pc.toNat % 2 = 0) (h : exec i s = .next t) :
    t.pc.toNat % 2 = 0 := by
  cases exec_effect h with
  | wrote _ _ _ _ _ hnext | moved _ _ _ hnext => exact hnext hwf hpc
  | stored => exact even_add_four hpc
  | misaligned | outOfBounds | halted => exact even_resolve hpc _

end Completes

/-- Settles O31: the transfer leaves a core that can step, and the next fetch raises the faults of its pc. -/
theorem targetsAreCheckedAtTheNextFetch : Obligations.TargetsAreCheckedAtTheNextFetch := by
  intro raw i s hd hi hpc hs
  obtain ⟨hrun, hdefault⟩ := hs
  obtain ⟨t, hexec, hstatus, hconfig, hlink⟩ := completesWithLink_of_isControlTransfer hi s
  have ht : CanStep t := ⟨hstatus.trans hrun, hconfig.trans hdefault⟩
  have heven := exec_pc_even (decode_wellFormed hd) (even_of_aligned hpc) hexec
  obtain ⟨hmisaligned, houtOfBounds, -⟩ := fetchAndDecodeFaultsInOrder t ht
  exact ⟨t, hexec, ht, heven, hlink, hmisaligned, houtOfBounds⟩

/-! ## How far a control transfer goes (R191) -/

/-- An offset added to an address, as numbers modulo 2^32 (R180). -/
theorem add_eq_ofInt_toNat_add_toInt (a imm : Word) : a + imm = BitVec.ofInt 32 ((a.toNat : Int) + imm.toInt) := by
  rw [BitVec.ofInt_add, BitVec.ofInt_natCast, BitVec.ofInt_toInt, BitVec.ofNat_toNat, BitVec.setWidth_eq]

section Reach
variable {i : Instr} {s t : State} {rd rs1 rs2 : RegIdx} {raw target imm p : Word}

theorem GoesTo.pc_eq (h : GoesTo i s target) (hexec : exec i s = .next t) : t.pc = target := by
  obtain ⟨t', hexec', hpc, -⟩ := h
  cases hexec.symm.trans hexec'
  exact hpc

theorem JumpsTo.pc_eq (h : JumpsTo i s rd target) (hexec : exec i s = .next t) : t.pc = target := by
  obtain ⟨t', hexec', -, hpc, -⟩ := h
  cases hexec.symm.trans hexec'
  exact hpc

/-- A branch goes on or to its target, whatever its condition. -/
theorem BranchRule.pc_cases {mk : RegIdx → RegIdx → Word → Instr} {taken : Word → Word → Prop}
    (hrule : BranchRule p mk taken) (hexec : exec (mk rs1 rs2 imm) s = .next t) : t.pc = s.pc + 4 ∨ t.pc = s.pc + imm := by
  obtain ⟨-, hrule⟩ := hrule
  obtain ⟨htaken, hnot⟩ := hrule rs1 rs2 imm s
  by_cases h : taken (s.x rs1) (s.x rs2)
  · exact .inr ((htaken h).pc_eq hexec)
  · exact .inl ((hnot h).pc_eq hexec)

/-- Every row of the BRANCH group has a branch's rule (30_encoding.md R79). -/
theorem exists_branchRule_of_selectBranch {f3 : BitVec 3} {f : RegIdx → RegIdx → Word → Instr}
    (hf : selectBranch f3 = some f) : ∃ p taken, BranchRule p f taken := by
  obtain ⟨hbeq, hbne⟩ := equalityBranchRules
  obtain ⟨hblt, hbge, hbltu, hbgeu⟩ := orderBranchRules
  unfold selectBranch at hf
  split at hf <;> cases hf
  · exact ⟨_, _, hbeq⟩
  · exact ⟨_, _, hbne⟩
  · exact ⟨_, _, hblt⟩
  · exact ⟨_, _, hbge⟩
  · exact ⟨_, _, hbltu⟩
  · exact ⟨_, _, hbgeu⟩

/-- A decoded word with the BRANCH opcode is a branch with the word's B-immediate (30_encoding.md R79). -/
theorem exists_branch_of_decode (hd : decode raw = .instr i) (h0 : opcode raw = 0b1100011#7) :
    ∃ f, selectBranch (funct3 raw) = some f ∧ i = f (rs1Field raw) (rs2Field raw) (immB raw) := by
  cases decode_eq_instr_iff_decodesBy.mp hd with
  | branch _ hf => exact ⟨_, hf, rfl⟩
  | op h | opImm h | shiftImm h | load h | store h | jal h | jalr h | system h =>
    exact absurd (h0.symm.trans h) (by decide)

/-- A decoded word with the JAL opcode is JAL with the word's J-immediate (30_encoding.md R79). -/
theorem eq_jal_of_decode (hd : decode raw = .instr i) (h0 : opcode raw = 0b1101111#7) :
    i = .jal (rdField raw) (immJ raw) :=
  DecodeResult.instr.inj (hd.symm.trans (decode_eq_instr_iff_decodesBy.mpr (.jal h0)))

end Reach

/-- Settles O32: the offset is the word's immediate, in its format's range; an even address is JALR's target as it stands. -/
theorem transferRanges : Obligations.TransferRanges := by
  obtain ⟨-, hjal, -, hjalr⟩ := jumpRules
  refine ⟨fun raw i s t hd hexec => ⟨fun h0 => ?branch, fun h0 => ?jal⟩, fun s rd rs1 heven => ?jalr⟩
  case branch =>
    obtain ⟨f, hf, rfl⟩ := exists_branch_of_decode hd h0
    obtain ⟨p, taken, hrule⟩ := exists_branchRule_of_selectBranch hf
    refine (hrule.pc_cases hexec).imp_right fun hpc => ?_
    obtain ⟨hlow, hhigh, hparity⟩ := of_decide_eq_true (fitsB_immB raw)
    exact ⟨(immB raw).toInt, hlow, hhigh, hparity, hpc.trans (add_eq_ofInt_toNat_add_toInt ..)⟩
  case jal =>
    obtain rfl := eq_jal_of_decode hd h0
    have hpc : t.pc = s.pc + immJ raw := (hjal ..).pc_eq hexec
    obtain ⟨hlow, hhigh, hparity⟩ := of_decide_eq_true (fitsJ_immJ raw)
    exact ⟨(immJ raw).toInt, hlow, hhigh, hparity, hpc.trans (add_eq_ofInt_toNat_add_toInt ..)⟩
  case jalr =>
    obtain ⟨t, hexec, -, hpc, -⟩ := hjalr rd rs1 0 s
    refine ⟨t, hexec, hpc.trans ?_⟩
    rw [BitVec.ofNat_eq_ofNat, BitVec.add_zero, Nat.div_mul_cancel (Nat.dvd_of_mod_eq_zero heven), BitVec.ofNat_toNat,
      BitVec.setWidth_eq]

end Sys2Proof.Machine

/-! PROOFS. The system family (44_system.md): a well-formed instruction has one word, and ECALL and EBREAK halt. -/

namespace Sys2Proof.Machine

/-- A well-formed instruction is decoded from its own word, and from no other (30_encoding.md R84, R85). -/
theorem eq_encode_iff_decode_eq {raw : Word} {i : Instr} (hwf : i.wellFormed = true) :
    raw = encode i ↔ decode raw = .instr i := by
  obtain ⟨hround, -⟩ := decodeOfEncode
  constructor
  · rintro rfl
    exact hround i hwf
  · intro h
    exact (decode_eq_instr_iff_decodesBy.mp h).encode_eq.symm

/-- Settles O33: the two words are the encodings, and each arm of `exec` raises the halt with its cause. -/
theorem systemRules : Obligations.SystemRules :=
  ⟨fun _ => eq_encode_iff_decode_eq (i := .ecall) rfl, fun _ => eq_encode_iff_decode_eq (i := .ebreak) rfl,
    fun _ => ⟨halts_of_eq rfl, halts_of_eq rfl⟩⟩

end Sys2Proof.Machine

/-! PROOFS. The exceptions family (60_exceptions.md): how an instruction ends, and what a stop leaves behind. -/

namespace Sys2Proof.Machine

/-! ## How an instruction ends (R228)

`exec_effect` says what an instruction does to the state, whichever instruction it is; the table of R228 is about which
instruction stops, so here each stop carries its row of the table. -/

/-- An instruction completes, with the status kept, or raises one of the stops that R228 gives it. -/
inductive ExecEnd (i : Instr) (s : State) : State → Prop where
  | completed {t : State} (hstatus : t.status = s.status) : ExecEnd i s t
  | dataFault (r : FaultRecord) (hipc : r.ipc = s.pc) (hcls : r.cls ≠ .fetch) (hmay : (r.kind, r.cls) ∈ i.mayRaise) :
      ExecEnd i s (raiseDataFault r s)
  | halted (cause : HaltCause) (hcause : i.haltCause = some cause) : ExecEnd i s (raiseHalt cause s)

section Ends
variable {i : Instr} {s t : State} {addr : Word} {n : Nat}

/-- A load ends with its result or with one of the load faults; one byte is never misaligned (42_load_store.md R160). -/
theorem execEnd_loadInto {rd : RegIdx} {value : Option Word} (h : loadInto rd addr n value s = .next t)
    (hmis : n ≠ 1 → (.misalignedAccess, .load) ∈ i.mayRaise) (hout : (.outOfBoundsAccess, .load) ∈ i.mayRaise) :
    ExecEnd i s t := by
  by_cases ha : addr.toNat % n = 0
  · cases value with
    | none => rw [loadInto_outOfBounds ha] at h; cases h; exact .dataFault _ rfl nofun hout
    | some v => rw [loadInto_value ha] at h; cases h; exact .completed (by simp)
  · have hn : n ≠ 1 := fun h1 => ha (h1 ▸ Nat.mod_one _)
    rw [loadInto_misaligned ha] at h; cases h; exact .dataFault _ rfl nofun (hmis hn)

/-- A store ends with its bytes written or with one of the store faults; one byte is never misaligned (R166). -/
theorem execEnd_storeTo {written : Option Memory} (h : storeTo addr n written s = .next t)
    (hmis : n ≠ 1 → (.misalignedAccess, .store) ∈ i.mayRaise) (hout : (.outOfBoundsAccess, .store) ∈ i.mayRaise) :
    ExecEnd i s t := by
  by_cases ha : addr.toNat % n = 0
  · cases written with
    | none => rw [storeTo_outOfBounds ha] at h; cases h; exact .dataFault _ rfl nofun hout
    | some m => rw [storeTo_written ha] at h; cases h; exact .completed rfl
  · have hn : n ≠ 1 := fun h1 => ha (h1 ▸ Nat.mod_one _)
    rw [storeTo_misaligned ha] at h; cases h; exact .dataFault _ rfl nofun (hmis hn)

/-- Every instruction ends in one of these ways. -/
theorem exec_end (h : exec i s = .next t) : ExecEnd i s t := by
  cases i with
  | add | sub | and | or | xor | slt | sltu | sll | srl | sra => cases h; exact .completed (by simp)
  | addi | andi | ori | xori | slti | sltiu | slli | srli | srai => cases h; exact .completed (by simp)
  | lb | lh | lw | lbu | lhu => exact execEnd_loadInto h (by simp [Instr.mayRaise]) (by simp [Instr.mayRaise])
  | sb | sh | sw => exact execEnd_storeTo h (by simp [Instr.mayRaise]) (by simp [Instr.mayRaise])
  | jal | jalr => cases h; exact .completed (by simp)
  | beq | bne | blt | bge | bltu | bgeu => cases h; exact .completed rfl
  | ecall | ebreak => cases h; exact .halted _ rfl

end Ends

/-- Settles O13: of the three ways to end, a fault and a halt each carry the instruction's row of the table. -/
theorem instructionsRaiseOnlyTheirStops : Obligations.InstructionsRaiseOnlyTheirStops := by
  intro i s t hrun h
  cases exec_end h with
  | completed hstatus =>
    rw [hstatus, hrun]
    exact ⟨nofun, nofun, fun _ _ => rfl⟩
  | dataFault r _ _ hmay =>
    refine ⟨fun r' hr' => ?_, nofun, fun hnone => ?_⟩
    · cases hr'; exact hmay
    · rw [hnone] at hmay; cases hmay
  | halted cause hcause =>
    refine ⟨nofun, fun cause' ipc hc => ?_, fun _ hnone => ?_⟩
    · cases hc; exact hcause
    · rw [hnone] at hcause; cases hcause

/-! ## What a stop leaves behind (R233; 40_execution_engine.md R103) -/

/-- A fetch or decode fault names the instruction's address, and its class is Fetch (R223). -/
theorem FetchFault.ipc_cls {s : State} {r : FaultRecord} (h : FetchFault s r) : r.ipc = s.pc ∧ r.cls = .fetch := by
  cases h <;> exact ⟨rfl, rfl⟩

/-- Settles O12: a step that stops ends in `raise`, which changes only status and pc; the record and the pc are those of the
fetch fault, the data fault or the halt. -/
theorem stopsArePrecise : Obligations.StopsArePrecise := by
  intro s t h hstop
  obtain ⟨-, hrun, ⟨i, -, -, -, -, hexec⟩ | ⟨r, hr, rfl⟩⟩ := step_cases h
  · cases exec_end hexec with
    | completed hstatus => exact absurd (hstatus.trans hrun) hstop
    | dataFault r hipc hcls _ =>
      refine ⟨.of_regs rfl, .of_mem rfl, rfl, fun r' hr' => ?_, nofun⟩
      cases hr'
      exact ⟨hipc, fun hfetch => absurd hfetch hcls, fun _ => pcLeft_raise _ _ s⟩
    | halted cause _ =>
      refine ⟨.of_regs rfl, .of_mem rfl, rfl, nofun, fun cause' ipc hc => ?_⟩
      cases hc
      exact ⟨rfl, pcLeft_raise _ _ s⟩
  · obtain ⟨hipc, hcls⟩ := hr.ipc_cls
    refine ⟨.of_regs rfl, .of_mem rfl, rfl, fun r' hr' => ?_, nofun⟩
    cases hr'
    exact ⟨hipc, fun _ => rfl, fun hdata => absurd hcls hdata⟩

end Sys2Proof.Machine

/-! PROOFS. The reset and hazards family (70_reset_and_hazards.md): a bad INIT_PC, the bytes the host loads, and the word it
loads at the pc. -/

namespace Sys2Proof.Machine

/-! ## A bad INIT_PC (R252) -/

theorem State.canStep_construct (initPc : Option Word) (initRegs : List (RegIdx × Word)) (mem : Memory) :
    CanStep (State.construct initPc initRegs mem) :=
  ⟨State.construct_status .., State.construct_config ..⟩

/-- Settles O40: construction leaves a core that can step, whose first fetch raises the faults of its pc. -/
theorem badInitPcFaultsOnTheFirstStep : Obligations.BadInitPcFaultsOnTheFirstStep := by
  intro pc initRegs mem
  obtain ⟨hmisaligned, houtOfBounds, -⟩ :=
    fetchAndDecodeFaultsInOrder _ (State.canStep_construct (some pc) initRegs mem)
  rw [State.construct_pc] at hmisaligned houtOfBounds
  rw [State.construct_mem] at houtOfBounds
  exact ⟨hmisaligned, houtOfBounds⟩

/-! ## The bytes the host loads (R253; 20_memory.md R54, R59) -/

section HostLoad
variable {m : Memory} {a b : Nat} {bs : List Byte}

/-- The host's write changes no admission (20_memory.md R41). -/
@[simp] theorem Memory.admitsByte_hostWrite (m : Memory) (a b : Nat) (v : Byte) :
    (m.hostWrite a v).admitsByte b = m.admitsByte b := by
  simp [Memory.admitsByte]

/-- The host's load keeps every byte outside the addresses it loads, admitted or not. -/
theorem Memory.byteAt_hostLoad_other (m : Memory) (hb : b < a ∨ a + bs.length ≤ b) :
    (m.hostLoad a bs).byteAt b = m.byteAt b := by
  induction bs generalizing m a with
  | nil => rfl
  | cons v rest ih =>
    rw [List.length_cons] at hb
    calc ((m.hostWrite a v).hostLoad (a + 1) rest).byteAt b
        = (m.hostWrite a v).byteAt b := ih _ (by omega)
      _ = m.byteAt b := Memory.byteAt_hostWrite_other m (by omega) v

/-- Byte `k` loaded stands at `a + k`: the first is written at once and the rest of the load keeps it. -/
theorem Memory.byteAt_hostLoad (hadm : ∀ k, k < bs.length → m.admitsByte (a + k) = true) {k : Nat} (hk : k < bs.length) :
    (m.hostLoad a bs).byteAt (a + k) = bs[k] := by
  induction bs generalizing m a k with
  | nil => cases hk
  | cons v rest ih =>
    cases k with
    | zero =>
      calc ((m.hostWrite a v).hostLoad (a + 1) rest).byteAt a
          = (m.hostWrite a v).byteAt a := Memory.byteAt_hostLoad_other _ (.inl (Nat.lt_succ_self a))
        _ = v := (Memory.byteAt_hostWrite (hadm 0 hk) v a).trans (if_pos rfl)
    | succ k =>
      have hshift (j : Nat) : a + (j + 1) = a + 1 + j := by omega
      rw [hshift]
      refine ih (m := m.hostWrite a v) (fun j hj => ?_) (Nat.lt_of_succ_lt_succ hk)
      rw [Memory.admitsByte_hostWrite, ← hshift]
      exact hadm (j + 1) (Nat.succ_lt_succ hj)

end HostLoad

/-- Settles O46: each byte is written in its turn and kept by the rest; with nothing loaded, every byte is MEM_INIT. -/
theorem hostLoadPlacesItsBytes : Obligations.HostLoadPlacesItsBytes := by
  refine ⟨fun m a bs hadm => ?loaded, fun base size a b bs hb => ?unloaded⟩
  case loaded =>
    exact ⟨Memory.hostLoad_windows .., fun _ => Memory.byteAt_hostLoad hadm, fun _ => Memory.byteAt_hostLoad_other m⟩
  case unloaded =>
    rw [Memory.byteAt_hostLoad_other _ hb, Memory.byteAt_reference]

/-! ## The word the host loads at the pc (R253; 20_memory.md R47) -/

/-- The host's load of a word's four bytes, least-significant first, is the interface's write of the word. -/
theorem Memory.hostLoad_bytesOf {m : Memory} {addr : Word} (hadm : Admitted m addr 4) (v : Word) :
    m.hostLoad addr.toNat [byteOf v 0, byteOf v 1, byteOf v 2, byteOf v 3] = m.setBytes addr.toNat v 4 := by
  have h0 : m.admitsByte addr.toNat = true := hadm 0 (by decide)
  simp [Memory.hostLoad, Memory.setBytes, Memory.hostWrite, h0, hadm 1, hadm 2, hadm 3]

/-- Settles O47: the fetch reads back the word loaded, and the host's load touches the memory only (R111). -/
theorem hostLoadedWordIsRunNext : Obligations.HostLoadedWordIsRunNext := by
  rintro s raw i hs hpc hadm hd t rfl
  have hload :
      (s.mem.hostLoad s.pc.toNat [byteOf raw 0, byteOf raw 1, byteOf raw 2, byteOf raw 3]).load32 s.pc = some raw := by
    rw [Memory.hostLoad_bytesOf hadm, Memory.load32_setBytes hadm]
  exact ⟨step_of_load32 hs hpc hload hd, .of_regs rfl, rfl, rfl⟩

end Sys2Proof.Machine

/-! PROOFS. The spec's own words (95_test_vectors.md sections 2 to 6): a word that is the encoding of a well-formed instruction
decodes to it, so each vector is checked against the encoder. -/

namespace Sys2Proof

/-- R85, read from the word's side. -/
theorem decode_of_encode_eq {raw : Word} {i : Instr} (hwf : i.wellFormed = true) (hraw : encode i = raw) :
    decode raw = .instr i :=
  hraw ▸ decodeOfEncode.1 i hwf

/-- Settles O5: nine of the words are the encodings of well-formed instructions; the tenth has LUI's opcode, which no group of
the decoder has. -/
theorem specWordsDecode : Obligations.SpecWordsDecode := by
  refine ⟨?sub, ?andi, ?srai, ?lw, ?sw, ?jal, ?jalr, ?bltu, ?ebreak, ?lui⟩
  case sub | andi | srai | lw | sw | jal | jalr | bltu | ebreak => exact decode_of_encode_eq rfl rfl
  case lui => exact decode_illegal_of_opcode (by decide)

end Sys2Proof
